-- ==== Sys2Proof/Config.lean ====
section
/-!
DEFINITION. What an implementation fixes (R10). The parameters a rule reads are a record that State carries
(DESIGN CHOICE, notes/assumptions/1.md); those the spec leaves OPEN and no rule reads are constants without a body
(DESIGN CHOICE, notes/assumptions/2.md).
-/

namespace Sys2Proof

/-- The implementation parameters of R10 that have a value in this spec. They are fixed when the hardware is
built and no operation reads or writes them as data (R24). -/
structure Params where
  /-- `HAS_DELTA`: whether delta_coder_wrapper is built (D15). -/
  hasDelta : Bool
  /-- `LENW`: width in bits of `in_len` and `out_cap` (D7). -/
  lenw : Nat
  /-- `ERRW`: width in bits of a byte-source error code (D19). -/
  errw : Nat
  /-- `LUT_PORTS`: number of ROM read ports, not observable (R67, D27; DESIGN CHOICE, notes/assumptions/19.md). -/
  lutPorts : Nat
  deriving DecidableEq, Repr

/-- The defaults of R10. -/
def Params.default : Params := { hasDelta := true, lenw := 8, errw := 8, lutPorts := 1 }

/-- The legal values of R10. -/
abbrev Params.Legal (p : Params) : Prop := 5 ≤ p.lenw ∧ 1 ≤ p.errw ∧ 1 ≤ p.lutPorts

/-- `RESET_STYLE` (R10, R123). -/
inductive ResetStyle where
  | sync
  | async
  deriving DecidableEq, Repr, Inhabited

/-- `LAT_LUT`, OPEN (R10, R134): no rule depends on it. -/
opaque Config.latLut : Nat

/-- `LAT_ENC`, OPEN (R10, R134): no rule depends on it. -/
opaque Config.latEnc : Nat

/-- `LAT_DEC`, OPEN (R10, R134): no rule depends on it. -/
opaque Config.latDec : Nat

/-- `RESET_STYLE`, OPEN (R10, R123, D17): not observable at the transaction level. -/
opaque Config.resetStyle : ResetStyle

end Sys2Proof
end

