-- ==== Sys2Proof/Syntax.lean ====
section
/-!
DEFINITION. The instructions: one constructor per row of spec/opcode_table.json (R47), with the row's two free
bits, L and D (R45). The command word has no other operand (R46): the operands are request fields.
-/

namespace Sys2Proof

/-- The layout bit `L` (R45, R57). -/
inductive Layout where
  /-- L = 0: the control byte travels apart from the data. -/
  | split
  /-- L = 1: the control byte immediately precedes its data bytes. -/
  | inline
  deriving DecidableEq, Repr

/-- `L` as a number of bytes: `need = sum + L` (R57). -/
def Layout.size : Layout → Nat
  | .split => 0
  | .inline => 1

/-- The six commands (R47). `l` is the layout L, `d` the differential bit D. -/
inductive Instr where
  /-- LUT.RD (R63). -/
  | lutRd
  /-- ENC.U (R75). -/
  | encU (l : Layout) (d : Bool)
  /-- ENC.C (R76). -/
  | encC (l : Layout) (d : Bool)
  /-- DEC.U (R84). -/
  | decU (l : Layout) (d : Bool)
  /-- DEC.C (R85). -/
  | decC (l : Layout) (d : Bool)
  /-- DEC.S (R89). -/
  | decS (l : Layout) (d : Bool)
  deriving DecidableEq, Repr

/-- The `D` bit of a command; LUT.RD has D = 0 (R47). -/
def Instr.diff : Instr → Bool
  | .lutRd => false
  | .encU _ d => d
  | .encC _ d => d
  | .decU _ d => d
  | .decC _ d => d
  | .decS _ d => d

/-- The `C` bit of a command (R45, R47): true for the checked tier. -/
def Instr.checked : Instr → Bool
  | .lutRd => false
  | .encU _ _ => false
  | .encC _ _ => true
  | .decU _ _ => false
  | .decC _ _ => true
  | .decS _ _ => true

end Sys2Proof
end

