-- ==== Sys2Proof/WellFormed.lean ====
section
/-!
DEFINITION. Which commands a core built with given parameters has: with `HAS_DELTA = false` the commands with
D = 1 are not legal (R47, R58, R99). L and D have no other restriction. The meanings do
not ask this again (DESIGN CHOICE, notes/assumptions/18.md).
-/

namespace Sys2Proof

/-- The command exists on a core built with parameters `p` (R47, R99). -/
def Instr.wf (p : Params) (i : Instr) : Bool := !i.diff || p.hasDelta

end Sys2Proof
end

