-- ==== Sys2Proof/Word.lean ====
section
/-!
DEFINITION. The two word types (R9, R11: `u8` and `u32`), the group of four that a quad is made of, and the
seventeen byte lanes of a request or response buffer (R16, R17).
-/

namespace Sys2Proof

/-- `u8` (R11). -/
abbrev Byte := BitVec 8

/-- `u32` (R11); its sums and differences are modulo 2^32. -/
abbrev Word := BitVec 32

/-- Four like things, index 0 first: a quad, its lengths, its offsets (R9: the quad size is 4). -/
structure Four (α : Type) where
  x0 : α
  x1 : α
  x2 : α
  x3 : α
  deriving DecidableEq, Repr

/-- Element `i`, counted from 0 (R11). -/
def Four.get {α : Type} (q : Four α) : Fin 4 → α
  | 0 => q.x0
  | 1 => q.x1
  | 2 => q.x2
  | 3 => q.x3

/-- `q` with element `i` replaced. -/
def Four.set {α : Type} (q : Four α) (i : Fin 4) (a : α) : Four α :=
  match i with
  | 0 => { q with x0 := a }
  | 1 => { q with x1 := a }
  | 2 => { q with x2 := a }
  | 3 => { q with x3 := a }

/-- The four values of a function, in order. -/
def Four.ofFn {α : Type} (f : Fin 4 → α) : Four α := ⟨f 0, f 1, f 2, f 3⟩

/-- One function applied to each of the four (`for i in 0..3 (in parallel)`, R72). -/
def Four.map {α β : Type} (f : α → β) (q : Four α) : Four β := ⟨f q.x0, f q.x1, f q.x2, f q.x3⟩

/-- Four equal elements. -/
def Four.fill {α : Type} (a : α) : Four α := ⟨a, a, a, a⟩

/-- The sum of four lengths, an exact natural number (R11). -/
def Four.total (n : Four Nat) : Nat := n.x0 + n.x1 + n.x2 + n.x3

/-- The sum of the lengths that stand before index `i`. -/
def Four.before (n : Four Nat) : Fin 4 → Nat
  | 0 => 0
  | 1 => n.x0
  | 2 => n.x0 + n.x1
  | 3 => n.x0 + n.x1 + n.x2

/-- The number of byte lanes of `buf_in` and of `out_data` (R16, R17, D7). -/
abbrev laneCount : Nat := 17

/-- Seventeen byte lanes, lane 0 first. -/
abbrev Lanes := Vector Byte laneCount

/-- Seventeen one-bit write enables, lane 0 first. -/
abbrev Enables := Vector Bool laneCount

end Sys2Proof
end

