-- ==== Sys2Proof/Decode.lean ====
section
/-!
DEFINITION. The decoder of the command word (R45 to R48, R58), total on every byte and rejecting each reserved
word under the name of the case of R58 it falls in; then the encoder, from the encodings of R47.
-/

namespace Sys2Proof

/-- The cases of R58 in which a command word is reserved. -/
inductive Reserved where
  /-- `U = 11`. -/
  | unit
  /-- `R = 1`. -/
  | reservedBit
  /-- `U = 00` with any other bit set. -/
  | lutOtherBits
  /-- `U = 01` with `S != 00`. -/
  | encoderSource
  /-- `U = 10` with `S` in {10, 11}. -/
  | decoderSource
  /-- `U = 10` with `S = 01` and `C = 0`. -/
  | uncheckedStream
  /-- `D = 1` when `HAS_DELTA = false`. -/
  | noDelta
  deriving DecidableEq, Repr

/-- What the decoder reads from a command word. -/
inductive Decoded where
  | instr (i : Instr)
  | reserved (why : Reserved)
  deriving DecidableEq, Repr

/-- `U`, bits [7:6] (R45). -/
def cmdUnit (cmd : Byte) : BitVec 2 := cmd.extractLsb' 6 2

/-- `R`, bit [5] (R45). -/
def cmdReserved (cmd : Byte) : Bool := cmd.getLsbD 5

/-- `L`, bit [4] (R45): 0 is split, 1 is inline. -/
def cmdLayout (cmd : Byte) : Layout := if cmd.getLsbD 4 then .inline else .split

/-- `D`, bit [3] (R45). -/
def cmdDiff (cmd : Byte) : Bool := cmd.getLsbD 3

/-- `C`, bit [2] (R45). -/
def cmdChecked (cmd : Byte) : Bool := cmd.getLsbD 2

/-- `S`, bits [1:0] (R45). -/
def cmdSource (cmd : Byte) : BitVec 2 := cmd.extractLsb' 0 2

/-- Match and mask (R48): the row a word belongs to, before HAS_DELTA is asked. -/
def matchRow (cmd : Byte) : Option Instr :=
  if cmd &&& 0xFF#8 = 0x00#8 then some .lutRd
  else if cmd &&& 0xE7#8 = 0x40#8 then some (.encU (cmdLayout cmd) (cmdDiff cmd))
  else if cmd &&& 0xE7#8 = 0x44#8 then some (.encC (cmdLayout cmd) (cmdDiff cmd))
  else if cmd &&& 0xE7#8 = 0x80#8 then some (.decU (cmdLayout cmd) (cmdDiff cmd))
  else if cmd &&& 0xE7#8 = 0x84#8 then some (.decC (cmdLayout cmd) (cmdDiff cmd))
  else if cmd &&& 0xE7#8 = 0x85#8 then some (.decS (cmdLayout cmd) (cmdDiff cmd))
  else none

/-- The first case of R58, in the rule's order, that a word of no row falls in. -/
def reservedCase (cmd : Byte) : Reserved :=
  if cmdUnit cmd = 0b11#2 then .unit
  else if cmdReserved cmd then .reservedBit
  else if cmdUnit cmd = 0b00#2 then .lutOtherBits
  else if cmdUnit cmd = 0b01#2 then .encoderSource
  else if cmdSource cmd = 0b01#2 then .uncheckedStream
  else .decoderSource

/-- The command a core built with parameters `p` reads from `cmd` (R47, R48, R58). -/
def decode (p : Params) (cmd : Byte) : Decoded :=
  match matchRow cmd with
  | none => .reserved (reservedCase cmd)
  | some i => if i.wf p then .instr i else .reserved .noDelta

/-- The bits L and D in their places (R45). -/
def modifierBits (l : Layout) (d : Bool) : Byte :=
  (match l with
    | .split => 0x00#8
    | .inline => 0x10#8) ||| (if d then 0x08#8 else 0x00#8)

/-- The command word of an instruction (R47). -/
def encodeCmd : Instr → Byte
  | .lutRd => 0x00#8
  | .encU l d => 0x40#8 ||| modifierBits l d
  | .encC l d => 0x44#8 ||| modifierBits l d
  | .decU l d => 0x80#8 ||| modifierBits l d
  | .decC l d => 0x84#8 ||| modifierBits l d
  | .decS l d => 0x85#8 ||| modifierBits l d

/-- The words of an instruction: the one command byte (R45, R46). -/
def encode (i : Instr) : List Byte := [encodeCmd i]

/-- The instruction in a list of command bytes and the bytes that follow it; none where the list is empty or its
first byte is reserved. -/
def decodeBytes (p : Params) : List Byte → Option (Instr × List Byte)
  | [] => none
  | cmd :: rest =>
    match decode p cmd with
    | .instr i => some (i, rest)
    | .reserved _ => none

/-- The command byte of a row's word: the command word has eight bits and one format (R45), so bits 7..0 of `w`. -/
def tableByte (_nbits w : Nat) : Byte := BitVec.ofNat 8 w

/-- The instruction the decoder reads from a word numbered as spec/opcode_table.json numbers it, on a core with the
default parameters of R10. -/
def decodeTableWord (nbits w : Nat) : Option Instr :=
  (decodeBytes Params.default [tableByte nbits w]).map Prod.fst

end Sys2Proof
end

