-- ==== Sys2Proof/Machine/Delta.lean ====
section
/-!
DEFINITION. delta_coder_wrapper (R95 to R98), modulo 2^32. It is selected by the D bit of a command and carries no
value from one quad to the next (R101).
-/

namespace Sys2Proof.Machine

/-- `DeltaFwd` (R95): each value after the first as its difference from the previous original value. -/
def deltaFwd (v : Four Word) : Four Word := ⟨v.x0, v.x1 - v.x0, v.x2 - v.x1, v.x3 - v.x2⟩

/-- `DeltaInv` (R97): the running prefix sum, each addition using the value already updated. -/
def deltaInv (w : Four Word) : Four Word :=
  let v0 := w.x0
  let v1 := v0 + w.x1
  let v2 := v1 + w.x2
  let v3 := v2 + w.x3
  ⟨v0, v1, v2, v3⟩

/-- The values an encoder stores (R53, R72). -/
def storedQuad (d : Bool) (v : Four Word) : Four Word := if d then deltaFwd v else v

/-- The values a decoder returns (R83). -/
def returnedQuad (d : Bool) (w : Four Word) : Four Word := if d then deltaInv w else w

end Sys2Proof.Machine
end

