-- ==== Sys2Proof/Machine/Memory.lean ====
section
/-!
DEFINITION. Byte lanes (R25: input and output buffer lanes 0 to 16) and the caller's output buffer `OB` (R28): a list
of (lane, byte) pairs with strictly rising lanes. A lane that is not listed holds whatever the caller left there,
which the model does not know (DESIGN CHOICE, notes/assumptions/12.md).
-/

namespace Sys2Proof.Machine

/-- `MemRead(buf, i, 1)`: byte lane `i` of a buffer (R11). Lanes 0 to 16 are the whole space (R38); the operations
that use it ask first (`State.decodeBuffer`). -/
def laneRead (b : Lanes) (i : Nat) : Byte := b[i]?.getD 0#8

/-- The two output fields that `MemWrite` sets (R11, R17). -/
structure OutLanes where
  data : Lanes
  we : Enables
  deriving DecidableEq, Repr

/-- `for j in 0..16: out_data[j] <- 0; out_we[j] <- 0` (R71). -/
def OutLanes.clear : OutLanes := { data := Vector.replicate laneCount 0#8, we := Vector.replicate laneCount false }

/-- `MemWrite(out, i, 1, b)`: sets output lane `i` to `b` and its write enable (R11). -/
def OutLanes.write (o : OutLanes) (i : Nat) (b : Byte) : OutLanes :=
  { data := o.data.setIfInBounds i b, we := o.we.setIfInBounds i true }

/-- The caller's output buffer: the bytes the model knows, by lane. -/
abbrev Memory := List Host.Cell

/-- The canonical form: lanes strictly rising. An unlisted lane reads as no known byte, so no entry repeats it. -/
abbrev Memory.wf (m : Memory) : Prop := m.Pairwise (fun x y => x.1 < y.1)

/-- The byte of lane `a`; none where nothing is known of it. -/
def memRead : Memory → Nat → Option Byte
  | [], _ => none
  | (x, b) :: m, a => if a = x then some b else memRead m a

/-- Lane `a` set to `b`. -/
def memWrite : Memory → Nat → Byte → Memory
  | [], a, b => [(a, b)]
  | (x, c) :: m, a, b =>
    if a < x then (a, b) :: (x, c) :: m
    else if a = x then (a, b) :: m
    else (x, c) :: memWrite m a b

/-- Several writes, the first first. -/
def memWrites : Memory → List Host.Cell → Memory
  | m, [] => m
  | m, (a, b) :: ws => memWrites (memWrite m a b) ws

/-- `OB'[j] = out_we[j] ? out_data[j] : OB[j]` for one lane `j`, where `j < out_cap` (R28). -/
def memApplyLane (cap : Nat) (o : OutLanes) (m : Memory) (j : Nat) : Memory :=
  if j < cap ∧ o.we[j]?.getD false = true then memWrite m j (laneRead o.data j) else m

/-- The output buffer update of R28: every lane `j < 17` with `j < out_cap`. -/
def memApply (m : Memory) (cap : Nat) (o : OutLanes) : Memory :=
  (List.range laneCount).foldl (memApplyLane cap o) m

end Sys2Proof.Machine
end

