-- ==== Sys2Proof/Machine/Rom.lean ====
section
/-!
DEFINITION. The control byte's fields (R49, R50), the 40-bit ROM word (R56) and the ROM `varint_control_lut`
(R23, R63 to R67): its contents by the formula of R64, and its read by address.
-/

namespace Sys2Proof.Machine

/-- One ROM word `{len0, len1, len2, len3, sum}`, one byte each (R56). -/
abbrev LutWord := BitVec 40

/-- Field `i` of a control byte, bits [7-2i : 6-2i], most significant first (R32, R49). -/
def ctrlField (c : Byte) (i : Fin 4) : BitVec 2 := c.extractLsb' (6 - 2 * i.val) 2

/-- The length that field `i` of `c` encodes, as a `u8` (R50, R64). -/
def ctrlLen (c : Byte) (i : Fin 4) : Byte := (ctrlField c i).setWidth 8 + 1#8

/-- The sum of the four lengths, as a `u8` (R64). -/
def ctrlSum (c : Byte) : Byte := ctrlLen c 0 + ctrlLen c 1 + ctrlLen c 2 + ctrlLen c 3

/-- The ROM word of address `c` (R56, R64). -/
def lutWord (c : Byte) : LutWord :=
  ctrlLen c 0 ++ ctrlLen c 1 ++ ctrlLen c 2 ++ ctrlLen c 3 ++ ctrlSum c

/-- Byte `len<i>` of a ROM word (R56). -/
def wordLen (w : LutWord) (i : Fin 4) : Byte := w.extractLsb' (32 - 8 * i.val) 8

/-- Byte `sum` of a ROM word (R56). -/
def wordSum (w : LutWord) : Byte := w.extractLsb' 0 8

/-- The four lengths of a ROM word as natural numbers (lengths are exact naturals, R11). -/
def wordLens (w : LutWord) : Four Nat := Four.ofFn fun i => (wordLen w i).toNat

/-- 256 words in address order, as a table of four tables of four tables of four tables of four words: the two most
significant address bits choose in the outermost one (DESIGN CHOICE, notes/assumptions/5.md). -/
abbrev Rom := Four (Four (Four (Four LutWord)))

/-- `LUT[c]`: the word at the 8-bit address `c` (R11, R23). -/
def romRead (t : Rom) (c : Byte) : LutWord :=
  (((t.get (ctrlField c 0).toFin).get (ctrlField c 1).toFin).get (ctrlField c 2).toFin).get (ctrlField c 3).toFin

/-- The contents fixed at manufacture (R64, R66). -/
def romContents : Rom :=
  Four.ofFn fun a => Four.ofFn fun b => Four.ofFn fun c => Four.ofFn fun d =>
    lutWord (BitVec.ofNat 8 (64 * a.val + 16 * b.val + 4 * c.val + d.val))

end Sys2Proof.Machine
end

