-- ==== Sys2Proof/Machine/State.lean ====
section
/-!
DEFINITION. Everything the spec gives the machine (R13, R16 to R18, R20, R22, R26, R28), the inputs it reads, the
reasons a step can stop, and the state after reset (R29).
-/

namespace Sys2Proof.Machine

/-- The outcomes a transaction can end with (R60); codes 5, 6 and 7 are never produced. -/
inductive Status where
  | ok
  | insufficient
  | srcError
  | fatal
  | illegal
  deriving DecidableEq, Repr

/-- The phases of the core (R22). -/
inductive Phase where
  | idle
  | busy
  | resp
  | halt
  deriving DecidableEq, Repr

/-- The fields of a request (R16). `inLen` and `outCap` are unsigned integers of LENW bits. -/
structure Request where
  cmd : Byte
  ctrlIn : Byte
  val : Four Word
  bufIn : Lanes
  inLen : Nat
  outCap : Nat
  deriving DecidableEq, Repr

/-- Every request field 0 (R61: "Fields not named are 0"). -/
def Request.zero : Request :=
  { cmd := 0#8, ctrlIn := 0#8, val := Four.fill 0#32, bufIn := Vector.replicate laneCount 0#8, inLen := 0, outCap := 0 }

/-- The fields of a response (R17). `errCode` is an unsigned integer of ERRW bits. -/
structure Response where
  status : Status
  ctrlOut : Byte
  lenOut : Four Byte
  sumOut : Byte
  valOut : Four Word
  nbytes : BitVec 5
  out : OutLanes
  errCode : Nat
  deriving DecidableEq, Repr

/-- Every response field 0 (R17, R29); the status whose code is 0 is OK (R60). -/
def Response.zero : Response :=
  { status := .ok, ctrlOut := 0#8, lenOut := Four.fill 0#8, sumOut := 0#8, valOut := Four.fill 0#32, nbytes := 0#5,
    out := OutLanes.clear, errCode := 0 }

/-- An answer of the byte source (R18). -/
inductive Answer where
  | byte (b : Byte)
  | fail (e : Nat)
  deriving DecidableEq, Repr

/-- The byte-source channel in one step (R18, R124). -/
inductive SrcSignal where
  /-- `src_valid = 0`. -/
  | quiet
  /-- `src_valid = 1`: the answer to the pull the core has outstanding. -/
  | answer (a : Answer)
  /-- `src_valid = 1`: the answer to a pull that a reset abandoned (R124). -/
  | late (a : Answer)
  deriving DecidableEq, Repr

/-- What the outside world does in one step. -/
structure Input where
  /-- Reset is asserted (R123). -/
  rst : Bool
  /-- The request channel: none where `req_valid = 0`, else the fields presented (R16). -/
  req : Option Request
  /-- `rsp_ready` (R17). -/
  rspReady : Bool
  /-- The byte-source channel (R18). -/
  src : SrcSignal
  /-- Bytes the caller itself writes into its output buffer (R130), the first first. -/
  callerWrites : List Host.Cell
  deriving DecidableEq, Repr

/-- An input in which nothing happens. -/
def Input.quiet : Input := { rst := false, req := none, rspReady := false, src := .quiet, callerWrites := [] }

/-- What the core holds during a DEC.S transaction (R26), with the two modifier bits of its accepted command, which
the later steps need (R128; DEDUCED, notes/assumptions/7.md). -/
structure Prog where
  /-- `L` of the accepted command. -/
  layout : Layout
  /-- `D` of the accepted command. -/
  diff : Bool
  /-- `k`: the count of answers taken so far. -/
  k : Nat
  /-- `c`: the control byte, once known. -/
  ctrl : Option Byte
  /-- `acc[0..3]`: the accumulators of the fields read so far. -/
  acc : Four Word
  deriving DecidableEq, Repr

/-- The state of the machine. -/
structure State where
  /-- The implementation parameters (R10), fixed when the hardware is built (DESIGN CHOICE, notes/assumptions/1.md). -/
  params : Params
  /-- `LUT[0..255]` (R13, R23). -/
  rom : Rom
  /-- `FAULT` (R13, R20). -/
  fault : Bool
  /-- `phase` (R13, R22). -/
  phase : Phase
  /-- `rsp`, the held response (R13, R17). -/
  rsp : Response
  /-- `prog`; none is "empty" (R13, R26). -/
  prog : Option Prog
  /-- The request sampled in the accepting cycle (R128), kept while its transaction is open (DEDUCED, DESIGN CHOICE,
  notes/assumptions/6.md). -/
  req : Request
  /-- `OB`, the caller's output buffer, outside the core (R28). -/
  ob : Memory
  /-- The request presented and not accepted yet (R128). The model's own field (DESIGN CHOICE, notes/assumptions/3.md). -/
  pending : Option Request
  /-- Pulls a reset abandoned whose answers may still come (R124). The model's own field (DEDUCED, DESIGN CHOICE,
  notes/assumptions/10.md). -/
  abandoned : Nat
  /-- The inputs of the steps to come, the next one first. The model's own field (DESIGN CHOICE, notes/assumptions/3.md). -/
  env : List Input
  deriving DecidableEq, Repr

/-- Why a step stops the machine. -/
inductive Fault where
  /-- Raised by `State.haltStep`: the core is in HALT and no input is left, so no step follows (R108, R136). Safe: the
  hardware stays in HALT as well. -/
  | halted
  /-- Raised by `State.decodeBuffer`: a quad would reach past lane 16, which is no lane of the input buffer (R38).
  Never with the ROM contents of R64, where `need` is at most 17. Safe: the model stops. -/
  | noSuchLane
  deriving DecidableEq, Repr

/-- Why a step gives no meaning. -/
inductive Refusal where
  /-- Raised by `exec`'s arms for an instruction without a meaning yet; none is left. Safe. -/
  | notModelled (mnemonic : String)
  /-- Raised by `State.protocolError`: the caller withdrew or changed a request before it was accepted, which is outside
  the spec (R128, U12: `refuse`). Safe: the model stops. -/
  | requestUnstable
  /-- Raised by `State.protocolError`: the byte source presented an answer that no pull asked for, which is outside the
  spec (R131, U11: `refuse`). Safe: the model stops. -/
  | sourceUnasked
  deriving DecidableEq, Repr

/-- The machine right after reset (R29): the core's fields as the rule says, the default parameters of R10, and the
rest at the values of notes/assumptions/3.md, 6.md, 10.md and 12.md (each a DESIGN CHOICE). -/
def State.reset : State :=
  { params := Params.default
    rom := romContents
    fault := false
    phase := .idle
    rsp := Response.zero
    prog := none
    req := Request.zero
    ob := []
    pending := none
    abandoned := 0
    env := [] }

end Sys2Proof.Machine
end

