-- ==== Sys2Proof/Machine/Flags.lean ====
section
/-!
DEFINITION. The hardware has no flags; the status of each response is its one outcome indicator (R19, R60). Here are
the status codes, the statuses that a command can raise, and the size tests that decide them (R75, R76, R84, R85).
-/

namespace Sys2Proof.Machine

/-- The 3-bit code of a status (R60). -/
def statusCode : Status → BitVec 3
  | .ok => 0#3
  | .insufficient => 1#3
  | .srcError => 2#3
  | .fatal => 3#3
  | .illegal => 4#3

/-- The statuses that `raise Status(s)` ends an operation with (R11, R102); a source failure carries its code (R90). -/
inductive Raise where
  | insufficient
  | srcError (e : Nat)
  | fatal
  | illegal
  deriving DecidableEq, Repr

/-- The status of a raised outcome (R102). -/
def raiseStatus : Raise → Status
  | .insufficient => .insufficient
  | .srcError _ => .srcError
  | .fatal => .fatal
  | .illegal => .illegal

/-- `err_code` of a raised outcome: only a source failure records something (R104 to R107). -/
def raiseCode : Raise → Nat
  | .srcError e => e
  | _ => 0

/-- Whether a raised outcome sets `FAULT`: FATAL alone (R20, R110). -/
def raiseFaults : Raise → Bool
  | .fatal => true
  | _ => false

/-- `need >u zext(out_cap)` (R75, R76), against the exact need of this quad (D9). -/
abbrev CapTooSmall (need outCap : Nat) : Prop := outCap < need

/-- `zext(in_len) <u need` (R84, R85). -/
abbrev LenTooSmall (need inLen : Nat) : Prop := inLen < need

end Sys2Proof.Machine
end

