-- ==== Sys2Proof/Machine/Operands.lean ====
section
/-!
DEFINITION. The operand forms: request fields as the port delivers them (R16, R46), a response field of five bits
(R17), the control byte of a buffer decode (R79), and the lengths and offsets of a quad (R57, R81).
-/

namespace Sys2Proof.Machine

/-- A request as it stands on wires of the built widths: `in_len` and `out_cap` have LENW bits (R16, R46;
DESIGN CHOICE, notes/assumptions/8.md). -/
def requestOnPort (p : Params) (r : Request) : Request :=
  { r with inLen := r.inLen % 2 ^ p.lenw, outCap := r.outCap % 2 ^ p.lenw }

/-- A source error code as it stands on ERRW wires (R18, R114; DESIGN CHOICE, notes/assumptions/8.md). -/
def errOnPort (p : Params) (e : Nat) : Nat := e % 2 ^ p.errw

/-- `nbytes`, a field of five bits (R17). -/
def nbytesField (n : Nat) : BitVec 5 := BitVec.ofNat 5 n

/-- The control byte of a buffer decode: `ctrl_in` when L = 0, lane 0 when L = 1, where it is valid only if
`in_len >= 1` (R79). -/
def bufferCtrl (l : Layout) (r : Request) : Option Byte :=
  match l with
  | .split => some r.ctrlIn
  | .inline => if r.inLen < 1 then none else some (laneRead r.bufIn 0)

/-- The control byte that a stream decode knows at acceptance: `ctrl_in` when L = 0; when L = 1 it is the first
answer (R79). -/
def streamCtrl (l : Layout) (r : Request) : Option Byte :=
  match l with
  | .split => some r.ctrlIn
  | .inline => none

/-- `off[i] = L + len[0] + ... + len[i-1]` (R71, R81). -/
def laneOffset (l : Layout) (n : Four Nat) (i : Fin 4) : Nat := l.size + n.before i

/-- The four lengths that ROM `t` gives control byte `c` (R80). -/
def romLens (t : Rom) (c : Byte) : Four Nat := wordLens (romRead t c)

/-- The sum that ROM `t` gives control byte `c` (R80). -/
def romSum (t : Rom) (c : Byte) : Nat := (wordSum (romRead t c)).toNat

/-- `need = sum + L` (R57, R81). -/
def romNeed (t : Rom) (l : Layout) (c : Byte) : Nat := romSum t c + l.size

end Sys2Proof.Machine
end

