-- ==== Sys2Proof/Machine/Ops.lean ====
section
/-!
DEFINITION. The shared operations on the state: completing a response, `raise Status(s)` (the hardware's exception
entry, R108), taking the response (its return, R111), reset (R123, R124), accepting a request (R22, R128), and the
outputs (R18, R21, R22).
-/

namespace Sys2Proof.Machine

/-- `req_ready`: IDLE, and no request is accepted while `FAULT = 1` (R22, R109; DEDUCED,
notes/assumptions/14.md). -/
def State.reqReady (s : State) : Bool := s.phase == .idle && !s.fault

/-- `rsp_valid` (R22). -/
def State.rspValid (s : State) : Bool := s.phase == .resp

/-- `fault_o` (R21). -/
def State.faultO (s : State) : Bool := s.fault

/-- `src_pull`: a DEC.S waits for an answer (R18, R26, R27). -/
def State.srcPull (s : State) : Bool := s.phase == .busy && s.prog.isSome

/-- BUSY to RESP: the response is complete and held (R17, R22). -/
def State.respond (s : State) (r : Response) : State := { s with rsp := r, phase := .resp }

/-- `raise Status(s)`: the operation ends with that status, every other response field is 0 but for a source failure's
code, and FATAL sets `FAULT` (R11, R104 to R108). -/
def State.raise (s : State) (x : Raise) : State :=
  ({ s with fault := s.fault || raiseFaults x }).respond
    { Response.zero with status := raiseStatus x, errCode := raiseCode x }

/-- The response is taken (R22, R28, R36, R111): the output buffer is updated as one update, and the core goes to IDLE,
or to HALT when `FAULT = 1`. Nothing of the transaction is kept (R13, R19; DEDUCED, DESIGN CHOICE, notes/assumptions/6.md). -/
def State.takeResponse (s : State) : State :=
  { s with
    ob := memApply s.ob s.req.outCap s.rsp.out
    phase := if s.fault then .halt else .idle
    rsp := Response.zero
    req := Request.zero }

/-- Pulls whose answers may still come after a reset: those abandoned before, and the outstanding one (R124). An answer
in the very step of the reset is the last that was owed, since the source answers in order (R117). -/
def abandonedAtReset (s : State) : SrcSignal → Nat
  | .quiet => s.abandoned + (if s.srcPull then 1 else 0)
  | .answer _ => 0
  | .late _ => (s.abandoned - 1) + (if s.srcPull then 1 else 0)

/-- Reset (R29, R123, R124), with the byte-source channel of the same step. The ROM and the caller's buffer are not
changed; a presented request is not yet accepted and may be withdrawn. -/
def State.resetCore (s : State) (src : SrcSignal) : State :=
  { s with
    fault := false
    phase := .idle
    rsp := Response.zero
    prog := none
    req := Request.zero
    pending := none
    abandoned := abandonedAtReset s src }

/-- IDLE to BUSY: the request is accepted and all its fields are sampled (R22, R128). -/
def State.accept (s : State) (r : Request) : State :=
  { s with phase := .busy, req := requestOnPort s.params r, pending := none }

end Sys2Proof.Machine
end

