-- ==== Sys2Proof/Machine/Decoder.lean ====
section
/-!
DEFINITION. varint_decoder_parallel on a buffer: the big-endian reader (R82), raw reconstruction (R83), and the
meanings of DEC.U (R84) and DEC.C (R85).
-/

namespace Sys2Proof.Machine

/-- `acc <- (acc << 8) | zext_32(b)` (R82, R89). -/
def pushByte (acc : Word) (b : Byte) : Word := (acc <<< 8) ||| b.setWidth 32

/-- `RdBE(B, o, n)` (R82). -/
def rdBE (b : Lanes) (o n : Nat) : Word :=
  (List.range n).foldl (fun acc k => pushByte acc (laneRead b (o + k))) 0#32

/-- `DecRaw(B, c)`, given the lengths of `c` (R83). -/
def decRaw (l : Layout) (b : Lanes) (n : Four Nat) : Four Word :=
  Four.ofFn fun i => rdBE b (laneOffset l n i) (n.get i)

/-- The response of a decoder that succeeds: the decoded quad and the bytes consumed (R84, R85, R89). -/
def decResponse (v : Four Word) (need : Nat) : Response :=
  { Response.zero with status := .ok, valOut := v, nbytes := nbytesField need }

/-- What both buffer decoders do; `short` is what a buffer below `need` raises (R84, R85). A quad that would reach past
lane 16 stops by name: no such lane exists (R38), and with the ROM contents of R64 none does (DESIGN CHOICE,
notes/assumptions/17.md). -/
def State.decodeBuffer (s : State) (l : Layout) (d : Bool) (short : Raise) : Host.Outcome State Fault Refusal :=
  match bufferCtrl l s.req with
  | none => .next (s.raise short)
  | some c =>
    let n := romLens s.rom c
    let need := romNeed s.rom l c
    if LenTooSmall need s.req.inLen then .next (s.raise short)
    else if laneCount < l.size + n.total then .fault .noSuchLane
    else .next (s.respond (decResponse (returnedQuad d (decRaw l s.req.bufIn n)) need))

/-- DEC.U: decode one quad from a buffer, unchecked tier (R84). -/
def execDecU (l : Layout) (d : Bool) (s : State) : Host.Outcome State Fault Refusal :=
  s.decodeBuffer l d .fatal

/-- DEC.C: decode one quad from a buffer, checked tier (R85). -/
def execDecC (l : Layout) (d : Bool) (s : State) : Host.Outcome State Fault Refusal :=
  s.decodeBuffer l d .insufficient

end Sys2Proof.Machine
end

