-- ==== Sys2Proof/Machine/Encoder.lean ====
section
/-!
DEFINITION. varint_encoder_parallel: length selection (R68), the control-byte packer (R69), the big-endian formatter
(R52, R70), lane placement (R71), `EncQuad` (R72), and the meanings of ENC.U (R75) and ENC.C (R76).
-/

namespace Sys2Proof.Machine

/-- `blen(x)`: the least number of bytes that holds `x` (R68). -/
def blen (x : Word) : Nat :=
  if x.toNat < 2 ^ 8 then 1
  else if x.toNat < 2 ^ 16 then 2
  else if x.toNat < 2 ^ 24 then 3
  else 4

/-- One turn of the packer: shift the accumulating byte left by two and OR in (length - 1) (R69). -/
def packStep (c : Byte) (n : Nat) : Byte := (c <<< 2) ||| BitVec.ofNat 8 (n - 1)

/-- The control byte of four lengths (R69). -/
def packCtrl (n : Four Nat) : Byte := packStep (packStep (packStep (packStep 0#8 n.x0) n.x1) n.x2) n.x3

/-- Byte `k` of `BE(x, n)`: bits [8*(n-1-k)+7 : 8*(n-1-k)] (R52). -/
def beByte (x : Word) (n k : Nat) : Byte := x.extractLsb' (8 * (n - 1 - k)) 8

/-- `for k in 0..n-1: MemWrite(out, off + k, 1, ...)` for one value (R71). -/
def placeValue (off : Nat) (x : Word) (n : Nat) (o : OutLanes) : OutLanes :=
  (List.range n).foldl (fun o k => o.write (off + k) (beByte x n k)) o

/-- `place(c, w, n, L)`: the control byte at lane 0 when L = 1, then the four values, each at its offset (R71). -/
def placeQuad (l : Layout) (c : Byte) (w : Four Word) (n : Four Nat) : OutLanes :=
  let o := match l with
    | .split => OutLanes.clear
    | .inline => OutLanes.clear.write 0 c
  let o := placeValue (laneOffset l n 0) w.x0 n.x0 o
  let o := placeValue (laneOffset l n 1) w.x1 n.x1 o
  let o := placeValue (laneOffset l n 2) w.x2 n.x2 o
  placeValue (laneOffset l n 3) w.x3 n.x3 o

/-- What `EncQuad` returns (R72). -/
structure Encoding where
  ctrl : Byte
  lens : Four Nat
  need : Nat
  stored : Four Word
  deriving DecidableEq, Repr

/-- `EncQuad(val, D, L)` (R72). -/
def encQuad (l : Layout) (d : Bool) (v : Four Word) : Encoding :=
  let w := storedQuad d v
  let n := w.map blen
  { ctrl := packCtrl n, lens := n, need := n.total + l.size, stored := w }

/-- The response of an encoder that succeeds (R75, R76). -/
def encResponse (l : Layout) (e : Encoding) : Response :=
  { Response.zero with
    status := .ok
    ctrlOut := e.ctrl
    nbytes := nbytesField e.need
    out := placeQuad l e.ctrl e.stored e.lens }

/-- What both encoders do; `short` is what a capacity below `need` raises (R75, R76). -/
def State.encodeQuad (s : State) (l : Layout) (d : Bool) (short : Raise) : State :=
  let e := encQuad l d s.req.val
  if CapTooSmall e.need s.req.outCap then s.raise short
  else s.respond (encResponse l e)

/-- ENC.U: encode one quad, unchecked tier (R75). -/
def execEncU (l : Layout) (d : Bool) (s : State) : Host.Outcome State Fault Refusal :=
  .next (s.encodeQuad l d .fatal)

/-- ENC.C: encode one quad, checked tier (R76). -/
def execEncC (l : Layout) (d : Bool) (s : State) : Host.Outcome State Fault Refusal :=
  .next (s.encodeQuad l d .insufficient)

end Sys2Proof.Machine
end

