-- ==== Sys2Proof/Machine/LutRead.lean ====
section
/-!
DEFINITION. LUT.RD (R63).
-/

namespace Sys2Proof.Machine

/-- The response of LUT.RD to a ROM word: its four lengths and its sum, and every other field 0 (R63). -/
def lutResponse (w : LutWord) : Response :=
  { Response.zero with status := .ok, lenOut := Four.ofFn (wordLen w), sumOut := wordSum w }

/-- LUT.RD: one entry of the length table (R63). -/
def execLutRd (s : State) : Host.Outcome State Fault Refusal :=
  .next (s.respond (lutResponse (romRead s.rom s.req.ctrlIn)))

end Sys2Proof.Machine
end

