-- ==== Sys2Proof/Machine/Stream.lean ====
section
/-!
DEFINITION. DEC.S (R89 to R92): the meaning that opens the transaction, and what each answer of the byte source does.
-/

namespace Sys2Proof.Machine

/-- The value that data byte `j` of a quad with lengths `n` belongs to (R81, R89: `for i in 0..3`). -/
def valueIndex (n : Four Nat) (j : Nat) : Fin 4 :=
  if j < n.before 1 then 0
  else if j < n.before 2 then 1
  else if j < n.before 3 then 2
  else 3

/-- One data byte enters the accumulator of its value (R89). -/
def accumulate (n : Four Nat) (j : Nat) (acc : Four Word) (b : Byte) : Four Word :=
  acc.set (valueIndex n j) (pushByte (acc.get (valueIndex n j)) b)

/-- A DEC.S with progress `p`: it is complete when the control byte is known and every data byte it states has been
taken; else it waits with a pull outstanding (R27, R89). The response empties `prog` (R26). -/
def State.continueStream (s : State) (p : Prog) : State :=
  match p.ctrl with
  | none => { s with prog := some p }
  | some c =>
    if p.k < p.layout.size + (romLens s.rom c).total then { s with prog := some p }
    else ({ s with prog := none }).respond (decResponse (returnedQuad p.diff p.acc) (romNeed s.rom p.layout c))

/-- The progress after one byte: the control byte where it is not known yet, else a data byte (R89, R92). -/
def progByte (t : Rom) (p : Prog) (b : Byte) : Prog :=
  match p.ctrl with
  | none => { p with k := p.k + 1, ctrl := some b }
  | some c => { p with k := p.k + 1, acc := accumulate (romLens t c) (p.k - p.layout.size) p.acc b }

/-- An answer to the outstanding pull: a byte, or a failure that ends the operation at once (R89, R90). -/
def State.takeAnswer (s : State) (p : Prog) : Answer → State
  | .byte b => s.continueStream (progByte s.rom p b)
  | .fail e => ({ s with prog := none }).raise (.srcError (errOnPort s.params e))

/-- The progress of a DEC.S just accepted: no answer taken, the accumulators 0 (R26, R89). -/
def progStart (l : Layout) (d : Bool) (r : Request) : Prog :=
  { layout := l, diff := d, k := 0, ctrl := streamCtrl l r, acc := Four.fill 0#32 }

/-- DEC.S: decode one quad from the byte source (R89). The meaning opens the transaction and makes the first pull; each
answer then takes its own step, `State.takeAnswer` (R133). -/
def execDecS (l : Layout) (d : Bool) (s : State) : Host.Outcome State Fault Refusal :=
  .next (s.continueStream (progStart l d s.req))

end Sys2Proof.Machine
end

