-- ==== Sys2Proof/Machine/Dispatch.lean ====
section
/-!
DEFINITION. The meaning of each command, one arm per constructor (R47).
-/

namespace Sys2Proof.Machine

def exec (i : Instr) (s : State) : Host.Outcome State Fault Refusal :=
  match i with
  | .lutRd => Sys2Proof.Machine.execLutRd s
  | .encU l d => Sys2Proof.Machine.execEncU l d s
  | .encC l d => Sys2Proof.Machine.execEncC l d s
  | .decU l d => Sys2Proof.Machine.execDecU l d s
  | .decC l d => Sys2Proof.Machine.execDecC l d s
  | .decS l d => Sys2Proof.Machine.execDecS l d s

end Sys2Proof.Machine
end

