-- ==== Sys2Proof/Machine/Transact.lean ====
section
/-!
DEFINITION. What a step does around the meanings: the input of the step and the protocol its channels ask for (R128,
R131), and the work of each phase (R22, R109).
-/

namespace Sys2Proof.Machine

/-- The input of this step. Where no input is left, nothing happens, and a caller whose request waits goes on holding it
(R128; DESIGN CHOICE, notes/assumptions/3.md). -/
def State.input (s : State) : Input :=
  match s.env with
  | [] => { Input.quiet with req := s.pending }
  | x :: _ => x

/-- The pulls whose late answers may still come after this step's byte-source signal (R117, R124): a late answer settles
the oldest, and an answer to the outstanding pull ends the wait for those before it, since answers come in order. -/
def abandonedAfter (s : State) : SrcSignal → Nat
  | .quiet => s.abandoned
  | .answer _ => 0
  | .late _ => s.abandoned - 1

/-- The state once the step's input has been read: the caller's own writes are in its buffer, and a presented request
waits (R128, R130). -/
def State.readInput (s : State) : State :=
  let x := s.input
  { s with
    ob := memWrites s.ob x.callerWrites
    pending := x.req
    abandoned := abandonedAfter s x.src
    env := s.env.tail }

/-- The uses of the channels that are outside the spec: a waiting request withdrawn or changed (R128, U12), an answer
that no pull asked for (R131, U11). DEDUCED, notes/assumptions/9.md. -/
def State.protocolError (s : State) : Option Refusal :=
  let x := s.input
  if s.pending.isSome ∧ x.req ≠ s.pending then some .requestUnstable
  else match x.src with
    | .quiet => none
    | .answer _ => if s.srcPull then none else some .sourceUnasked
    | .late _ => if 0 < s.abandoned then none else some .sourceUnasked

/-- The command of the accepted request: its meaning, or ILLEGAL where the word is reserved (R58, R107, R109). -/
def State.runCommand (s : State) : Host.Outcome State Fault Refusal :=
  match decode s.params s.req.cmd with
  | .instr i => exec i s
  | .reserved _ => .next (s.raise .illegal)

/-- IDLE: a presented request is accepted and run, unless `FAULT = 1` (R22, R109). Running it here merges
BUSY into this step (DESIGN CHOICE, notes/assumptions/15.md). -/
def State.idleStep (s : State) (x : Input) : Host.Outcome State Fault Refusal :=
  match x.req with
  | none => .next s
  | some r => if s.reqReady then (s.accept r).runCommand else .next s

/-- BUSY: a DEC.S takes the answer to its pull, or goes on waiting (R27). BUSY without progress is an accepted command
that has not run; no step leaves the core there (DESIGN CHOICE, notes/assumptions/13.md). -/
def State.busyStep (s : State) (x : Input) : Host.Outcome State Fault Refusal :=
  match s.prog with
  | none => s.runCommand
  | some p =>
    match x.src with
    | .answer a => .next (s.takeAnswer p a)
    | _ => .next s

/-- RESP: the response is held until it is taken (R17, R22). -/
def State.respStep (s : State) (x : Input) : Host.Outcome State Fault Refusal :=
  if x.rspReady then .next s.takeResponse else .next s

/-- HALT: nothing is accepted (R108, R136). While inputs are left they pass without effect on the core; with none left
no step follows (DESIGN CHOICE, notes/assumptions/11.md). -/
def State.haltStep (s : State) (last : Bool) : Host.Outcome State Fault Refusal :=
  if last then .fault .halted else .next s

/-- The work of the phase the core is in (R22). -/
def State.phaseStep (s : State) (x : Input) (last : Bool) : Host.Outcome State Fault Refusal :=
  match s.phase with
  | .idle => s.idleStep x
  | .busy => s.busyStep x
  | .resp => s.respStep x
  | .halt => s.haltStep last

/-- Reset is asserted in this step (R123, R124): whatever stands on the request and response channels is without
effect, and a pull whose answer does not come in this very step is abandoned (DEDUCED, notes/assumptions/16.md). -/
def State.resetStep (s : State) (x : Input) : State :=
  { s.resetCore x.src with
    ob := memWrites s.ob x.callerWrites
    env := s.env.tail }

/-- One step: reset comes before everything (R123); then the channels' protocol; then the work of the phase. -/
def State.transact (s : State) : Host.Outcome State Fault Refusal :=
  let x := s.input
  if x.rst then .next (s.resetStep x)
  else match s.protocolError with
    | some r => .refused r
    | none => s.readInput.phaseStep x s.env.isEmpty

/-- A request that carries a command word and nothing else (R61: fields not named are 0). -/
def requestOfCmd (cmd : Byte) : Request := { Request.zero with cmd := cmd }

/-- The core reset and the next input a request with that command word (DESIGN CHOICE, notes/assumptions/4.md). -/
def State.presentCmd (s : State) (cmd : Byte) : State :=
  { s.resetCore .quiet with env := { Input.quiet with req := some (requestOfCmd cmd) } :: s.env }

end Sys2Proof.Machine
end

