-- ==== Sys2Proof/Machine/Step.lean ====
section
/-!
DEFINITION. One step of the machine, and the placing of a command where the next step takes it.
-/

namespace Sys2Proof.Machine

/-- One step (R133): the accepting step of a transaction, one source answer of a DEC.S, the taking of a response, a
reset, or waiting. -/
def step (s : State) : Host.Outcome State Fault Refusal := s.transact

/-- `s` with the command word `w` on the request channel of its next step. Nothing is fetched (R15): a command comes
from the caller (DESIGN CHOICE, notes/assumptions/4.md). -/
def State.withFetchWord (s : State) (nbits w : Nat) : State := s.presentCmd (tableByte nbits w)

end Sys2Proof.Machine
end

