-- ==== Sys2Proof/Machine/Assembler.lean ====
section
/-!
DEFINITION. The transaction syntax of R61: a line of it as data, its mnemonic with suffixes, and the request it stands
for ("The encoding of a line is its cmd byte from rule R47 together with the named request fields").
The text itself is not parsed (DESIGN CHOICE, notes/assumptions/20.md).
-/

namespace Sys2Proof.Machine

/-- One line of R61. A `DEC.*.I` line names no control byte, and a `DEC.S` line is followed by the source's answers. -/
inductive Line where
  | lutRd (c : Byte)
  | enc (checked : Bool) (l : Layout) (d : Bool) (v : Four Word) (cap : Nat)
  | decSplit (checked : Bool) (d : Bool) (c : Byte) (len : Nat) (bytes : List Byte)
  | decInline (checked : Bool) (d : Bool) (len : Nat) (bytes : List Byte)
  | streamSplit (d : Bool) (c : Byte)
  | streamInline (d : Bool)
  deriving DecidableEq, Repr

/-- The command of a line (R61, R62). -/
def lineInstr : Line → Instr
  | .lutRd _ => .lutRd
  | .enc checked l d _ _ => if checked then .encC l d else .encU l d
  | .decSplit checked d _ _ _ => if checked then .decC .split d else .decU .split d
  | .decInline checked d _ _ => if checked then .decC .inline d else .decU .inline d
  | .streamSplit d _ => .decS .split d
  | .streamInline d => .decS .inline d

/-- Bytes on the first lanes; "lanes beyond the listed bytes are 0" (R61). -/
def lanesOf (bytes : List Byte) : Lanes := Vector.ofFn fun j => bytes.getD j.val 0#8

/-- The request of a line; "Fields not named are 0" (R61). -/
def lineRequest (x : Line) : Request :=
  let r := { Request.zero with cmd := encodeCmd (lineInstr x) }
  match x with
  | .lutRd c => { r with ctrlIn := c }
  | .enc _ _ _ v cap => { r with val := v, outCap := cap }
  | .decSplit _ _ c len bytes => { r with ctrlIn := c, inLen := len, bufIn := lanesOf bytes }
  | .decInline _ _ len bytes => { r with inLen := len, bufIn := lanesOf bytes }
  | .streamSplit _ c => { r with ctrlIn := c }
  | .streamInline _ => r

/-- The suffixes: `.D` before `.I` (R61). -/
def suffixText (l : Layout) (d : Bool) : String :=
  (if d then ".D" else "") ++ (match l with
    | .split => ""
    | .inline => ".I")

/-- The mnemonic of a command with its suffixes (R61). -/
def instrText : Instr → String
  | .lutRd => "LUT.RD"
  | .encU l d => "ENC.U" ++ suffixText l d
  | .encC l d => "ENC.C" ++ suffixText l d
  | .decU l d => "DEC.U" ++ suffixText l d
  | .decC l d => "DEC.C" ++ suffixText l d
  | .decS l d => "DEC.S" ++ suffixText l d

end Sys2Proof.Machine
end

