-- ==== Sys2Proof/Safety.lean ====
section
/-!
DEFINITION. What claims are stated in terms of: the quad encoding as lists of bytes (R49 to R57), the acceptance of a
request, the invariant that every step keeps, part by part, and safe runs (R108: "FAULT = 0 at the end").
-/

namespace Sys2Proof.Machine

/-- The four lengths that a control byte encodes, by the formula of R50. -/
def ctrlLens (c : Byte) : Four Nat :=
  Four.ofFn fun i => ((c >>> (6 - 2 * i.val)) &&& 3#8).toNat + 1

/-- `need = sum + L` of a control byte (R57). -/
def quadNeed (l : Layout) (c : Byte) : Nat := (ctrlLens c).total + l.size

/-- `BE(x, n)` (R52): byte `k` is bits [8*(n-1-k)+7 : 8*(n-1-k)] of `x`. -/
def beBytes (x : Word) (n : Nat) : List Byte :=
  (List.range n).map fun k => BitVec.ofNat 8 (x.toNat / 2 ^ (8 * (n - 1 - k)))

/-- The data section of the stored values `w` in lengths `n`: no padding, no separators (R52). -/
def dataBytes (w : Four Word) (n : Four Nat) : List Byte :=
  beBytes w.x0 n.x0 ++ beBytes w.x1 n.x1 ++ beBytes w.x2 n.x2 ++ beBytes w.x3 n.x3

/-- The bytes one quad occupies: in the inline layout the control byte stands before the data (R57). -/
def unitBytes (l : Layout) (c : Byte) (w : Four Word) (n : Four Nat) : List Byte :=
  match l with
  | .split => dataBytes w n
  | .inline => c :: dataBytes w n

/-- The value of a big-endian byte sequence (R31, R82). -/
def beValue (bytes : List Byte) : Nat := bytes.foldl (fun a b => 256 * a + b.toNat) 0

/-- The quad that control byte `c` and the bytes of its unit stand for (R83): value `i` is read from its own bytes, which
follow those of the values before it. -/
def quadOf (l : Layout) (d : Bool) (c : Byte) (bytes : List Byte) : Four Word :=
  returnedQuad d (Four.ofFn fun i =>
    BitVec.ofNat 32 (beValue ((bytes.drop (l.size + (ctrlLens c).before i)).take ((ctrlLens c).get i))))

/-- The response of a decode that completes (R84, R85, R89): the quad, the bytes consumed, every other field 0. -/
def decodedResponse (l : Layout) (d : Bool) (c : Byte) (bytes : List Byte) : Response :=
  { Response.zero with valOut := quadOf l d c bytes, nbytes := BitVec.ofNat 5 (quadNeed l c) }

/-- The response of an outcome that records nothing but its status (R104, R106, R107). -/
def bareResponse (st : Status) : Response := { Response.zero with status := st }

/-- `c` is the control byte of a buffer decode of request `r` (R79). -/
def CtrlByteIs (l : Layout) (r : Request) (c : Byte) : Prop :=
  match l with
  | .split => c = r.ctrlIn
  | .inline => 1 ≤ r.inLen ∧ c = r.bufIn[0]

/-- The next step accepts request `r`: the core is in IDLE with `FAULT = 0`, reset is not asserted, the channels keep
their protocol, and the caller presents `r` (R16, R22, R109). -/
def State.Accepts (s : State) (r : Request) : Prop :=
  s.phase = .idle ∧ s.fault = false ∧ s.input.rst = false ∧ s.protocolError = none ∧ s.input.req = some r

/-- The next step takes the response held (R17). -/
def State.Takes (s : State) : Prop :=
  s.phase = .resp ∧ s.input.rst = false ∧ s.protocolError = none ∧ s.input.rspReady = true

/-- An input in which the byte source answers the outstanding pull, and nothing else happens. -/
def answerInput (a : Answer) : Input := { Input.quiet with src := .answer a }

/-- The ROM holds the contents of R64 (R66). -/
abbrev State.RomIntact (s : State) : Prop := s.rom = romContents

/-- `FAULT` and the phases agree (R20, R22, R108): 0 in IDLE and BUSY, 1 in HALT, and in RESP 1 exactly when the response
held is FATAL. -/
def State.FaultAgrees (s : State) : Prop :=
  match s.phase with
  | .idle => s.fault = false
  | .busy => s.fault = false
  | .resp => (s.fault = true ↔ s.rsp.status = .fatal)
  | .halt => s.fault = true

/-- A progress a DEC.S can have while it waits (R26, R89): the control byte is known or it is the answer waited for, and
fewer answers have been taken than the quad occupies. -/
def progOk (p : Prog) : Prop :=
  match p.ctrl with
  | none => p.layout = .inline ∧ p.k = 0
  | some c => p.layout.size ≤ p.k ∧ p.k < romNeed romContents p.layout c

/-- `prog` is held during a DEC.S and only then, and within its bounds (R26). -/
def State.ProgAgrees (s : State) : Prop :=
  (s.prog.isSome = true ↔ s.phase = .busy) ∧ ∀ p, s.prog = some p → progOk p

/-- A response that a rule can give. With status OK a byte count is 0 (LUT.RD) or in [4,17] (R103); with another status
every field but a source failure's code is 0 (R104 to R107). A lane is enabled only below the count, and a lane that is
not enabled is 0 (R17, R71). -/
structure ResponseOk (r : Response) : Prop where
  nonOk : r.status ≠ .ok → r = { Response.zero with status := r.status, errCode := r.errCode }
  code : r.status ≠ .srcError → r.errCode = 0
  count : r.nbytes = 0#5 ∨ (4 ≤ r.nbytes.toNat ∧ r.nbytes.toNat ≤ 17)
  lanes : ∀ j : Fin laneCount, r.out.we[j] = true → j.val < r.nbytes.toNat
  silent : ∀ j : Fin laneCount, r.out.we[j] = false → r.out.data[j] = 0#8

/-- The held response is one a rule can give, and outside RESP every response field reads 0 (R13, R17, R29). -/
def State.RspAgrees (s : State) : Prop :=
  ResponseOk s.rsp ∧ (s.phase ≠ .resp → s.rsp = Response.zero)

/-- No request field is kept when no transaction is open (R13). -/
def State.ReqAgrees (s : State) : Prop := s.phase = .idle ∨ s.phase = .halt → s.req = Request.zero

/-- The invariant of the machine. -/
structure State.Inv (s : State) : Prop where
  rom : s.RomIntact
  fault : s.FaultAgrees
  prog : s.ProgAgrees
  rsp : s.RspAgrees
  req : s.ReqAgrees
  ob : Memory.wf s.ob

/-- A run of `k` steps that ends in a state with `FAULT = 0`: what claims about runs assume (R108). -/
def SafeRun (k : Nat) (s t : State) : Prop :=
  Host.Core.run Sys2Proof.core k s = .next t ∧ t.fault = false

end Sys2Proof.Machine
end

