-- ==== Sys2Proof/Certificates/Slice0/Obligations.lean ====
section
/-!
DEFINITION. The statements for the provers, from the numbered rules of spec/. Each docstring names the rule.
-/

open Sys2Proof Sys2Proof.Machine

/-! ### Encodings -/

/-- The table of R47, a word and its command a row, in the order of the rule. -/
def Sys2Proof.commandTable : List (Byte × Instr) :=
  [(0x00#8, .lutRd),
   (0x40#8, .encU .split false), (0x48#8, .encU .split true), (0x50#8, .encU .inline false), (0x58#8, .encU .inline true),
   (0x44#8, .encC .split false), (0x4C#8, .encC .split true), (0x54#8, .encC .inline false), (0x5C#8, .encC .inline true),
   (0x80#8, .decU .split false), (0x88#8, .decU .split true), (0x90#8, .decU .inline false), (0x98#8, .decU .inline true),
   (0x84#8, .decC .split false), (0x8C#8, .decC .split true), (0x94#8, .decC .inline false), (0x9C#8, .decC .inline true),
   (0x85#8, .decS .split false), (0x8D#8, .decS .split true), (0x95#8, .decS .inline false), (0x9D#8, .decS .inline true)]

/-- Mask, pattern and command of the six rows (R48). -/
def Sys2Proof.rowPatterns : List (Byte × Byte × (Layout → Bool → Instr)) :=
  [(0xFF#8, 0x00#8, fun _ _ => .lutRd), (0xE7#8, 0x40#8, .encU), (0xE7#8, 0x44#8, .encC), (0xE7#8, 0x80#8, .decU),
   (0xE7#8, 0x84#8, .decC), (0xE7#8, 0x85#8, .decS)]

/-- A few words written out from R45 decode to the commands they stand for. -/
def Obligations.CommandWordsDecodeToTheirRows : Prop :=
  decode Params.default 0b00000000#8 = .instr .lutRd ∧
  decode Params.default 0b01011000#8 = .instr (.encU .inline true) ∧
  decode Params.default 0b01000100#8 = .instr (.encC .split false) ∧
  decode Params.default 0b10010000#8 = .instr (.decU .inline false) ∧
  decode Params.default 0b10001100#8 = .instr (.decC .split true) ∧
  decode Params.default 0b10011101#8 = .instr (.decS .inline true) ∧
  decode Params.default 0b10000001#8 = .reserved .uncheckedStream

/-- Decode and encode agree (R45 to R48): decoding the words of a well-formed command gives it back with the bytes that
follow, and whatever decodes was encoded so. -/
def Obligations.DecodeAndEncodeAgree : Prop :=
  ∀ (p : Params) (i : Instr) (bytes rest : List Byte),
    (i.wf p = true → decodeBytes p (encode i ++ rest) = some (i, rest)) ∧
    (decodeBytes p bytes = some (i, rest) → i.wf p = true ∧ bytes = encode i ++ rest)

/-- The legal commands are exactly the table of R47: 21 words with HAS_DELTA, 11 without. -/
def Obligations.LegalCommandsAreTheTable : Prop :=
  commandTable.length = 21 ∧ (commandTable.filter fun r => !r.2.diff).length = 11 ∧
  ∀ (p : Params) (cmd : Byte) (i : Instr),
    decode p cmd = .instr i ↔ (cmd, i) ∈ commandTable ∧ (i.diff = true → p.hasDelta = true)

/-- Match and mask give the decode: a word that matches a row is that row's command with the word's L and D, unless D = 1
without HAS_DELTA; the six patterns never overlap; a word is reserved exactly when none matches or D = 1 without
HAS_DELTA (R48). -/
def Obligations.RowPatternsNeverOverlap : Prop :=
  ∀ cmd : Byte,
    (rowPatterns.filter fun r => cmd &&& r.1 == r.2.1).length ≤ 1 ∧
    ∀ p : Params,
      (∀ r ∈ rowPatterns, cmd &&& r.1 = r.2.1 → (cmd.getLsbD 3 = true → p.hasDelta = true) →
        decode p cmd = .instr (r.2.2 (if cmd.getLsbD 4 then .inline else .split) (cmd.getLsbD 3))) ∧
      ((∃ why, decode p cmd = .reserved why) ↔
        ((∀ r ∈ rowPatterns, cmd &&& r.1 ≠ r.2.1) ∨ (cmd.getLsbD 3 = true ∧ p.hasDelta = false)))

/-- A word is reserved in exactly the cases of R58. -/
def Obligations.ReservedWordsAreTheCases : Prop :=
  ∀ (p : Params) (cmd : Byte),
    (∃ why, decode p cmd = .reserved why) ↔
      (cmdUnit cmd = 0b11#2 ∨ cmdReserved cmd = true ∨
       (cmdUnit cmd = 0b00#2 ∧ cmd ≠ 0#8) ∨
       (cmdUnit cmd = 0b01#2 ∧ cmdSource cmd ≠ 0b00#2) ∨
       (cmdUnit cmd = 0b10#2 ∧ (cmdSource cmd = 0b10#2 ∨ cmdSource cmd = 0b11#2)) ∨
       (cmdUnit cmd = 0b10#2 ∧ cmdSource cmd = 0b01#2 ∧ cmdChecked cmd = false) ∨
       (cmdDiff cmd = true ∧ p.hasDelta = false))

/-- The status codes (R60), none of them 5, 6 or 7. -/
def Obligations.StatusCodesAreTabled : Prop :=
  statusCode .ok = 0#3 ∧ statusCode .insufficient = 1#3 ∧ statusCode .srcError = 2#3 ∧ statusCode .fatal = 3#3 ∧
  statusCode .illegal = 4#3 ∧ ∀ st, (statusCode st).toNat ≤ 4

/-- Each mnemonic with its suffixes names exactly one command word (R62). -/
def Obligations.MnemonicsNameOneWord : Prop :=
  ∀ i j : Instr, instrText i = instrText j → encodeCmd i = encodeCmd j ∧ i = j

/-- The request of a transaction line carries the line's command (R61). -/
def Obligations.LineRequestDecodesToItsCommand : Prop :=
  ∀ (p : Params) (x : Line), (lineInstr x).wf p = true → decode p (lineRequest x).cmd = .instr (lineInstr x)

/-! ### Acceptance -/

/-- An accepted request whose word decodes runs as that command, on the state with its fields sampled (R22, R128). -/
def Obligations.StepRunsAcceptedCommand : Prop :=
  ∀ (s : State) (r : Request) (i : Instr),
    s.Accepts r → decode s.params r.cmd = .instr i → step s = exec i (s.readInput.accept r)

/-- The accepting cycle samples every request field, and a request that fits its wires is sampled as it is (R16, R128).
That wider numbers are cut to LENW bits is the model's choice (DESIGN CHOICE, notes/assumptions/8.md). -/
def Obligations.AcceptedRequestIsSampled : Prop :=
  ∀ (s : State) (r : Request),
    (s.readInput.accept r).phase = .busy ∧
    (s.readInput.accept r).pending = none ∧
    (s.readInput.accept r).req.cmd = r.cmd ∧
    (s.readInput.accept r).req.inLen = r.inLen % 2 ^ s.params.lenw ∧
    (s.readInput.accept r).req.outCap = r.outCap % 2 ^ s.params.lenw ∧
    (r.inLen < 2 ^ s.params.lenw → r.outCap < 2 ^ s.params.lenw → (s.readInput.accept r).req = r) ∧
    (s.readInput.accept r).rom = s.rom ∧ (s.readInput.accept r).params = s.params ∧
    (s.readInput.accept r).fault = s.fault ∧ (s.readInput.accept r).rsp = s.rsp ∧ (s.readInput.accept r).prog = s.prog ∧
    (s.readInput.accept r).ob = memWrites s.ob s.input.callerWrites

/-- A reserved command ends with status ILLEGAL and every other field 0; FAULT, the ROM, prog and the buffer are
unchanged (R107). -/
def Obligations.ReservedCommandAnswersIllegal : Prop :=
  ∀ (s : State) (r : Request) (why : Reserved),
    s.Accepts r → decode s.params r.cmd = .reserved why →
    step s = .next { s.readInput.accept r with phase := .resp, rsp := bareResponse .illegal }

/-- While the core is not in IDLE with FAULT = 0, a presented request is not accepted: it goes on waiting (R129, R40). That
IDLE with FAULT = 1, a state of no run, accepts none is DEDUCED from R109 (notes/assumptions/14.md). The sampled request
is kept unless this step takes the response; that it then reads 0 is the model's choice (notes/assumptions/6.md). -/
def Obligations.OneTransactionAtATime : Prop :=
  ∀ s t : State, s.reqReady = false → s.input.rst = false → step s = .next t →
    t.pending = s.input.req ∧ (t.req = s.req ∨ (s.Takes ∧ t.req = Request.zero))

/-! ### The ROM and LUT.RD -/

/-- LUT.RD answers the lengths and the sum of its control byte, with status OK and every other field 0, and changes
nothing else (R63, R64). -/
def Obligations.LutReadReturnsEntry : Prop :=
  encodeCmd .lutRd = 0x00#8 ∧
  ∀ s : State, s.RomIntact →
    exec .lutRd s = .next { s with
      phase := .resp
      rsp := { Response.zero with
        status := .ok
        lenOut := (ctrlLens s.req.ctrlIn).map (BitVec.ofNat 8)
        sumOut := BitVec.ofNat 8 (ctrlLens s.req.ctrlIn).total } }

/-- Every ROM word holds the lengths of its address and their sum, in the 40-bit layout (R64, R56). -/
def Obligations.RomContentsFollowFormula : Prop :=
  ∀ c : Byte,
    (∀ i, (wordLen (romRead romContents c) i).toNat = (ctrlLens c).get i) ∧
    (wordSum (romRead romContents c)).toNat = (ctrlLens c).total ∧
    (romRead romContents c).toNat =
      (ctrlLens c).x0 * 2 ^ 32 + (ctrlLens c).x1 * 2 ^ 24 + (ctrlLens c).x2 * 2 ^ 16 + (ctrlLens c).x3 * 2 ^ 8 +
        (ctrlLens c).total

/-- Each length is in 1..4 and depends on its own field alone; the sum is in [4,16], with 4 at 0x00 only and 16 at 0xFF
only; each sum occurs at the number of addresses whose field values add to it less 4 (R65). -/
def Obligations.RomTableTotality : Prop :=
  (∀ (c : Byte) (i : Fin 4), 1 ≤ (romLens romContents c).get i ∧ (romLens romContents c).get i ≤ 4) ∧
  (∀ (c c' : Byte) (i : Fin 4), ctrlField c i = ctrlField c' i →
    (romLens romContents c).get i = (romLens romContents c').get i) ∧
  (∀ c : Byte, romSum romContents c = (romLens romContents c).total ∧
    4 ≤ romSum romContents c ∧ romSum romContents c ≤ 16) ∧
  (∀ c : Byte, romSum romContents c = 4 ↔ c = 0x00#8) ∧
  (∀ c : Byte, romSum romContents c = 16 ↔ c = 0xFF#8) ∧
  (∀ k : Fin 13, ((List.range 256).filter fun a => romSum romContents (BitVec.ofNat 8 a) == k.val + 4).length =
    ((List.range 256).filter fun a => a / 64 + a / 16 % 4 + a / 4 % 4 + a % 4 == k.val).length)

/-- No step changes the ROM or a build parameter (R23, R24, R66). -/
def Obligations.NoStepChangesRomOrParams : Prop :=
  ∀ s t : State, step s = .next t → t.rom = s.rom ∧ t.params = s.params

/-! ### The encoder -/

/-- `blen(x)` is the least n in 1..4 with x < 2^(8n), by the thresholds of R68 and by the zero-ness of the upper bytes. -/
def Obligations.BlenIsLeastByteCount : Prop :=
  ∀ x : Word,
    1 ≤ blen x ∧ blen x ≤ 4 ∧ x.toNat < 2 ^ (8 * blen x) ∧ (∀ n, 1 ≤ n → x.toNat < 2 ^ (8 * n) → blen x ≤ n) ∧
    blen x = (if x.toNat < 2 ^ 8 then 1 else if x.toNat < 2 ^ 16 then 2 else if x.toNat < 2 ^ 24 then 3 else 4) ∧
    blen x = (if x.extractLsb' 24 8 ≠ 0#8 then 4 else if x.extractLsb' 16 8 ≠ 0#8 then 3
      else if x.extractLsb' 8 8 ≠ 0#8 then 2 else 1)

/-- The packer gives the four 2-bit fields (length - 1), value 0 in the most significant (R51, R69). -/
def Obligations.PackedControlByteHoldsLengths : Prop :=
  ∀ n : Four Nat, (∀ i, 1 ≤ n.get i ∧ n.get i ≤ 4) →
    packCtrl n = BitVec.ofNat 2 (n.x0 - 1) ++ BitVec.ofNat 2 (n.x1 - 1) ++ BitVec.ofNat 2 (n.x2 - 1) ++ BitVec.ofNat 2 (n.x3 - 1) ∧
    packCtrl n = (BitVec.ofNat 8 (n.x0 - 1) <<< 6) ||| (BitVec.ofNat 8 (n.x1 - 1) <<< 4) |||
      (BitVec.ofNat 8 (n.x2 - 1) <<< 2) ||| BitVec.ofNat 8 (n.x3 - 1) ∧
    ctrlLens (packCtrl n) = n

/-- The encoder's lanes are the bytes of the unit: enabled exactly below `need`, 0 from `need` on (R71, R52). -/
def Obligations.EncoderLanesHoldTheUnit : Prop :=
  ∀ (l : Layout) (d : Bool) (v : Four Word) (e : Encoding), e = encQuad l d v →
    (unitBytes l e.ctrl e.stored e.lens).length = e.need ∧
    ∀ j : Fin laneCount,
      (placeQuad l e.ctrl e.stored e.lens).we[j] = decide (j.val < e.need) ∧
      (placeQuad l e.ctrl e.stored e.lens).data[j] = (unitBytes l e.ctrl e.stored e.lens).getD j.val 0#8

/-- Byte k of value i stands at lane off_i + k; the values' lanes follow one another without a gap (R33). -/
def Obligations.ValueByteStandsAtItsLane : Prop :=
  ∀ (l : Layout) (d : Bool) (v : Four Word) (e : Encoding), e = encQuad l d v →
    (∀ (i : Fin 4) (k : Nat), k < e.lens.get i →
      laneRead (placeQuad l e.ctrl e.stored e.lens).data (laneOffset l e.lens i + k) =
        (e.stored.get i).extractLsb' (8 * (e.lens.get i - 1 - k)) 8) ∧
    laneOffset l e.lens 0 = l.size ∧
    laneOffset l e.lens 1 = laneOffset l e.lens 0 + e.lens.x0 ∧
    laneOffset l e.lens 2 = laneOffset l e.lens 1 + e.lens.x1 ∧
    laneOffset l e.lens 3 = laneOffset l e.lens 2 + e.lens.x2 ∧
    e.need = laneOffset l e.lens 3 + e.lens.x3

/-- `need - L` is in [4,16]: `need` is in [4,16] when L = 0 and in [5,17] when L = 1 (R73). -/
def Obligations.EncoderNeedRange : Prop :=
  ∀ (d : Bool) (v : Four Word),
    (4 ≤ (encQuad .split d v).need ∧ (encQuad .split d v).need ≤ 16) ∧
    (5 ≤ (encQuad .inline d v).need ∧ (encQuad .inline d v).need ≤ 17)

/-- The table entry of the control byte an encoder builds holds the lengths it chose and `need - L` (R74). -/
def Obligations.EncoderAgreesWithTable : Prop :=
  ∀ (l : Layout) (d : Bool) (v : Four Word) (e : Encoding), e = encQuad l d v →
    romLens romContents e.ctrl = e.lens ∧ romNeed romContents l e.ctrl = e.need

/-- The response of an encoder that succeeds (R75, R76), written with the bytes of the unit. -/
def Sys2Proof.Machine.EncodedResponse (l : Layout) (e : Encoding) (r : Response) : Prop :=
  r.status = .ok ∧ r.ctrlOut = e.ctrl ∧ r.nbytes.toNat = e.need ∧
  (∀ j : Fin laneCount, r.out.we[j] = decide (j.val < e.need) ∧
    r.out.data[j] = (unitBytes l e.ctrl e.stored e.lens).getD j.val 0#8) ∧
  r.lenOut = Four.fill 0#8 ∧ r.sumOut = 0#8 ∧ r.valOut = Four.fill 0#32 ∧ r.errCode = 0

/-- ENC.U: with capacity for `need` it answers OK and the encoding; with less it answers FATAL and sets FAULT. Nothing
else changes (R75). -/
def Obligations.EncUncheckedResult : Prop :=
  ∀ (l : Layout) (d : Bool) (s : State) (e : Encoding), e = encQuad l d s.req.val →
    encodeCmd (.encU l d) &&& 0xE7#8 = 0x40#8 ∧
    (e.need ≤ s.req.outCap →
      ∃ r, exec (.encU l d) s = .next { s with phase := .resp, rsp := r } ∧ EncodedResponse l e r) ∧
    (s.req.outCap < e.need →
      exec (.encU l d) s = .next { s with fault := true, phase := .resp, rsp := bareResponse .fatal })

/-- ENC.C: with capacity for `need` it answers OK and the encoding; with less it answers INSUFFICIENT. Nothing else
changes, FAULT among it (R76). -/
def Obligations.EncCheckedResult : Prop :=
  ∀ (l : Layout) (d : Bool) (s : State) (e : Encoding), e = encQuad l d s.req.val →
    encodeCmd (.encC l d) &&& 0xE7#8 = 0x44#8 ∧
    (e.need ≤ s.req.outCap →
      ∃ r, exec (.encC l d) s = .next { s with phase := .resp, rsp := r } ∧ EncodedResponse l e r) ∧
    (s.req.outCap < e.need →
      exec (.encC l d) s = .next { s with phase := .resp, rsp := bareResponse .insufficient })

/-- On every OK response of an encoder, field i of `ctrl_out` holds blen of stored value i (R77). -/
def Obligations.ControlByteDerivation : Prop :=
  ∀ (l : Layout) (d : Bool) (s t : State) (i : Instr), (i = .encU l d ∨ i = .encC l d) →
    exec i s = .next t → t.rsp.status = .ok →
    ∀ k : Fin 4, blen ((if d then deltaFwd s.req.val else s.req.val).get k) =
      ((t.rsp.ctrlOut >>> (6 - 2 * k.val)) &&& 3#8).toNat + 1

/-- With D = 0 the length, the field and the bytes of value i depend on val[i] alone; with D = 1 stored value i depends
on val[i] and val[i-1]; the offsets depend on the values before through their lengths alone (R78). -/
def Obligations.EncoderLaneIndependence : Prop :=
  ∀ (l : Layout) (v v' : Four Word) (i : Fin 4),
    (v.get i = v'.get i →
      (encQuad l false v).lens.get i = (encQuad l false v').lens.get i ∧
      ctrlField (encQuad l false v).ctrl i = ctrlField (encQuad l false v').ctrl i ∧
      beBytes ((encQuad l false v).stored.get i) ((encQuad l false v).lens.get i) =
        beBytes ((encQuad l false v').stored.get i) ((encQuad l false v').lens.get i)) ∧
    ((∀ j, j < i → (encQuad l false v).lens.get j = (encQuad l false v').lens.get j) →
      laneOffset l (encQuad l false v).lens i = laneOffset l (encQuad l false v').lens i) ∧
    (v.get i = v'.get i → (i ≠ 0 → v.get (i - 1) = v'.get (i - 1)) →
      (encQuad l true v).stored.get i = (encQuad l true v').stored.get i)

/-! ### The delta layer -/

/-- DeltaInv and DeltaFwd are inverse to each other, for every quad (R98). -/
def Obligations.DeltaInverseLaw : Prop :=
  ∀ v : Four Word, deltaInv (deltaFwd v) = v ∧ deltaFwd (deltaInv v) = v

/-- A pair that breaks the order wraps: the delta is v[i] - v[i-1] + 2^32, at least 2^32 - v[i-1] and at least 1, and takes
4 bytes when the drop is at most 2^32 - 2^24; an ordered pair gives a delta no larger and no longer than the value;
an equal pair gives 0 in one byte (R96). -/
def Obligations.DeltaOfUnorderedPairWraps : Prop :=
  ∀ (v : Four Word) (i : Fin 4), i ≠ 0 →
    ((v.get i).toNat < (v.get (i - 1)).toNat →
      ((deltaFwd v).get i).toNat = (v.get i).toNat + 2 ^ 32 - (v.get (i - 1)).toNat ∧
      2 ^ 32 - (v.get (i - 1)).toNat ≤ ((deltaFwd v).get i).toNat ∧ 1 ≤ ((deltaFwd v).get i).toNat ∧
      (blen ((deltaFwd v).get i) = 4 ↔ (v.get (i - 1)).toNat - (v.get i).toNat ≤ 2 ^ 32 - 2 ^ 24)) ∧
    ((v.get (i - 1)).toNat ≤ (v.get i).toNat →
      ((deltaFwd v).get i).toNat ≤ (v.get i).toNat ∧ blen ((deltaFwd v).get i) ≤ blen (v.get i)) ∧
    (v.get (i - 1) = v.get i → (deltaFwd v).get i = 0#32 ∧ blen ((deltaFwd v).get i) = 1)

/-- Without the wrapper every accepted word with D = 1 ends ILLEGAL; every other command has D = 0, so none computes a
delta, decodes as it does with the wrapper, and does the same as with it (R99). -/
def Obligations.WithoutWrapperDiffIsIllegal : Prop :=
  ∀ (s : State) (r : Request), s.params.hasDelta = false → s.Accepts r →
    (r.cmd.getLsbD 3 = true →
      step s = .next { s.readInput.accept r with phase := .resp, rsp := bareResponse .illegal }) ∧
    (∀ i, decode s.params r.cmd = .instr i →
      i.diff = false ∧ decode { s.params with hasDelta := true } r.cmd = .instr i ∧
      ∀ u t : State, exec i u = .next t →
        exec i { u with params := { u.params with hasDelta := true } } =
          .next { t with params := { t.params with hasDelta := true } })

/-- A decode without D of a buffer that a decode with D answers OK completes with OK as well and returns the stored
deltas (R100). -/
def Obligations.DecodeWithoutDiffReturnsDeltas : Prop :=
  ∀ (l : Layout) (s t : State), exec (.decC l true) s = .next t → t.rsp.status = .ok →
    ∃ u, exec (.decC l false) s = .next u ∧ u.rsp.status = .ok ∧ u.rsp.nbytes = t.rsp.nbytes ∧
      u.rsp.valOut = deltaFwd t.rsp.valOut

/-! ### The decoder -/

/-- `RdBE(B, o, n)` is the sum of B[o+k] * 2^(8*(n-1-k)), below 2^(8n), for n up to 4 (R82). -/
def Obligations.BigEndianReadIsExact : Prop :=
  ∀ (b : Lanes) (o n : Nat), n ≤ 4 →
    (rdBE b o n).toNat = ((List.range n).map fun k => (laneRead b (o + k)).toNat * 2 ^ (8 * (n - 1 - k))).sum ∧
    (rdBE b o n).toNat < 2 ^ (8 * n)

/-- DEC.U: with `in_len >= need` it answers OK, the quad of its bytes and `need`; with less, or with no control byte, it
answers FATAL and sets FAULT. Nothing else changes (R84). -/
def Obligations.DecUncheckedResult : Prop :=
  ∀ (l : Layout) (d : Bool) (s : State), s.RomIntact →
    encodeCmd (.decU l d) &&& 0xE7#8 = 0x80#8 ∧
    (∀ c, CtrlByteIs l s.req c →
      (quadNeed l c ≤ s.req.inLen →
        exec (.decU l d) s = .next { s with phase := .resp, rsp := decodedResponse l d c s.req.bufIn.toList }) ∧
      (s.req.inLen < quadNeed l c →
        exec (.decU l d) s = .next { s with fault := true, phase := .resp, rsp := bareResponse .fatal })) ∧
    (l = .inline → s.req.inLen = 0 →
      exec (.decU l d) s = .next { s with fault := true, phase := .resp, rsp := bareResponse .fatal })

/-- DEC.C: with `in_len >= need` it answers OK, the quad of its bytes and `need`; with less, or with no control byte, it
answers INSUFFICIENT. Nothing else changes, FAULT among it (R85). -/
def Obligations.DecCheckedResult : Prop :=
  ∀ (l : Layout) (d : Bool) (s : State), s.RomIntact →
    encodeCmd (.decC l d) &&& 0xE7#8 = 0x84#8 ∧
    (∀ c, CtrlByteIs l s.req c →
      (quadNeed l c ≤ s.req.inLen →
        exec (.decC l d) s = .next { s with phase := .resp, rsp := decodedResponse l d c s.req.bufIn.toList }) ∧
      (s.req.inLen < quadNeed l c →
        exec (.decC l d) s = .next { s with phase := .resp, rsp := bareResponse .insufficient })) ∧
    (l = .inline → s.req.inLen = 0 →
      exec (.decC l d) s = .next { s with phase := .resp, rsp := bareResponse .insufficient })

/-- The response of a buffer decode does not depend on a lane at or beyond `in_len` or `need`; when the length check fails
it depends at most on lane 0, and only when L = 1 and `in_len >= 1` (R86). -/
def Obligations.DecodersReadOnlyValidLanes : Prop :=
  ∀ (l : Layout) (d : Bool) (s : State) (b : Lanes) (c : Byte) (i : Instr), (i = .decU l d ∨ i = .decC l d) →
    s.RomIntact →
    ((CtrlByteIs l s.req c → (∀ j : Fin laneCount, j.val < min (quadNeed l c) s.req.inLen → b[j] = s.req.bufIn[j]) →
      ∃ r f, exec i s = .next { s with fault := f, phase := .resp, rsp := r } ∧
        exec i { s with req := { s.req with bufIn := b } } =
          .next { s with fault := f, phase := .resp, rsp := r, req := { s.req with bufIn := b } }) ∧
    (CtrlByteIs l s.req c → s.req.inLen < quadNeed l c → (l = .inline → b[0] = s.req.bufIn[0]) →
      ∃ r f, exec i s = .next { s with fault := f, phase := .resp, rsp := r } ∧
        exec i { s with req := { s.req with bufIn := b } } =
          .next { s with fault := f, phase := .resp, rsp := r, req := { s.req with bufIn := b } }) ∧
    (l = .inline → s.req.inLen = 0 →
      ∃ r f, exec i s = .next { s with fault := f, phase := .resp, rsp := r } ∧
        exec i { s with req := { s.req with bufIn := b } } =
          .next { s with fault := f, phase := .resp, rsp := r, req := { s.req with bufIn := b } }))

/-- Round trip (R94): what ENC.C with `out_cap >= 17` writes, DEC.C with the same D and L reads back, with the same
`nbytes`. -/
def Obligations.EncodeThenDecodeReturnsQuad : Prop :=
  ∀ (l : Layout) (d : Bool) (s t u : State), 17 ≤ s.req.outCap → exec (.encC l d) s = .next t →
    u.RomIntact → u.req.inLen = t.rsp.nbytes.toNat → (l = .split → u.req.ctrlIn = t.rsp.ctrlOut) →
    (∀ j : Fin laneCount, j.val < t.rsp.nbytes.toNat → u.req.bufIn[j] = t.rsp.out.data[j]) →
    ∃ w, exec (.decC l d) u = .next w ∧ w.rsp.status = .ok ∧ w.rsp.valOut = s.req.val ∧ w.rsp.nbytes = t.rsp.nbytes

/-! ### The stream decoder -/

/-- DEC.S opens its transaction: no answer taken, the control byte known when L = 0, a pull outstanding; nothing else
changes (R26, R27, R79, R89). That the progress holds the command's L and D as well is DEDUCED from R128
(notes/assumptions/7.md). -/
def Obligations.StreamOpensWithPull : Prop :=
  ∀ (l : Layout) (d : Bool) (s : State), s.RomIntact → s.phase = .busy →
    ∃ p, exec (.decS l d) s = .next { s with prog := some p } ∧ ({ s with prog := some p } : State).srcPull = true ∧
      p.layout = l ∧ p.diff = d ∧ p.k = 0 ∧ p.acc = Four.fill 0#32 ∧
      (l = .split → p.ctrl = some s.req.ctrlIn) ∧ (l = .inline → p.ctrl = none)

/-- The unit that a stream decode takes from the source: `need` answers, the first of them the control byte when L = 1
(R57, R92). -/
def Sys2Proof.Machine.StreamUnit (l : Layout) (r : Request) (c : Byte) (bytes : List Byte) : Prop :=
  bytes.length = quadNeed l c ∧
  match l with
  | .split => c = r.ctrlIn
  | .inline => bytes.head? = some c

/-- A DEC.S whose source answers every pull with a byte makes exactly `need` pulls and then answers OK and the quad of
those bytes; before the last answer it is in BUSY with a pull outstanding (R89, R92). The claim assumes that the source
answers (R135), and that the answers come back to back, one a step; StreamWaitsForAnswer says that a step without an
answer changes neither the progress nor the pull. -/
def Obligations.StreamDecodesQuad : Prop :=
  ∀ (l : Layout) (d : Bool) (s : State) (r : Request) (c : Byte) (bytes : List Byte) (x : Input) (rest : List Input),
    s.RomIntact → s.Accepts r → decode s.params r.cmd = .instr (.decS l d) → StreamUnit l r c bytes →
    s.env = x :: (bytes.map fun b => answerInput (.byte b)) ++ rest →
    (∀ m, m < quadNeed l c → ∃ t p, Host.Core.run Sys2Proof.core (1 + m) s = .next t ∧ t.phase = .busy ∧
      t.srcPull = true ∧ t.prog = some p ∧ p.k = m) ∧
    ∃ t, Host.Core.run Sys2Proof.core (1 + quadNeed l c) s = .next t ∧ t.phase = .resp ∧
      t.rsp = decodedResponse l d c bytes ∧ t.prog = none ∧ t.srcPull = false ∧ t.fault = false ∧ t.rom = s.rom ∧
      t.env = rest

/-- The first failure ends a DEC.S at once (R90): after m bytes, fewer than `need`, a failure gives SRC_ERROR with its code,
every other field 0, prog empty, no further pull, FAULT unchanged. For codes that fit ERRW bits, as all the spec's do
(R18), and answers that come back to back; StreamWaitsForAnswer covers the steps without an answer. -/
def Obligations.StreamFailureEndsAtOnce : Prop :=
  ∀ (l : Layout) (d : Bool) (s : State) (r : Request) (c : Byte) (bytes : List Byte) (x : Input) (rest : List Input)
    (m e : Nat),
    s.RomIntact → s.Accepts r → decode s.params r.cmd = .instr (.decS l d) → StreamUnit l r c bytes →
    m < quadNeed l c → e < 2 ^ s.params.errw →
    s.env = x :: ((bytes.take m).map fun b => answerInput (.byte b)) ++ answerInput (.fail e) :: rest →
    ∃ t, Host.Core.run Sys2Proof.core (2 + m) s = .next t ∧ t.phase = .resp ∧
      t.rsp = { Response.zero with status := .srcError, errCode := e } ∧ t.prog = none ∧ t.srcPull = false ∧
      t.fault = s.fault ∧ t.ob = memWrites s.ob x.callerWrites ∧ t.env = rest

/-- While the source does not answer, a DEC.S goes on waiting, with the same progress (R27). -/
def Obligations.StreamWaitsForAnswer : Prop :=
  ∀ (s : State) (p : Prog), s.phase = .busy → s.prog = some p → s.input.rst = false → s.protocolError = none →
    s.input.src = .quiet → step s = .next s.readInput ∧ s.readInput.srcPull = true ∧ s.readInput.prog = some p

/-- DEC.U, DEC.C and DEC.S give the same response to the same control byte, the same `need` bytes and the same D (R93). -/
def Obligations.DecodersShareOneRule : Prop :=
  ∀ (l : Layout) (d : Bool) (s u : State) (r : Request) (c : Byte) (bytes : List Byte) (x : Input) (rest : List Input),
    s.RomIntact → s.Accepts r → decode s.params r.cmd = .instr (.decS l d) → StreamUnit l r c bytes →
    s.env = x :: (bytes.map fun b => answerInput (.byte b)) ++ rest →
    u.RomIntact → CtrlByteIs l u.req c → quadNeed l c ≤ u.req.inLen →
    (∀ j : Fin laneCount, j.val < quadNeed l c → u.req.bufIn[j] = bytes.getD j.val 0#8) →
    ∃ t a b, Host.Core.run Sys2Proof.core (1 + quadNeed l c) s = .next t ∧ exec (.decC l d) u = .next a ∧
      exec (.decU l d) u = .next b ∧ t.rsp = a.rsp ∧ a.rsp = b.rsp ∧ a.rsp.status = .ok

/-! ### Outcomes, FAULT and phases -/

/-- Fatal entry (R108): the transaction that answers FATAL sets FAULT with every other field 0 and no lane enabled; once
taken, the core is in HALT with `req_ready = 0` and `fault_o = 1`. -/
def Obligations.FatalEntryHaltsCore : Prop :=
  ∀ s t : State, step s = .next t → s.phase ≠ .resp → t.phase = .resp → t.rsp.status = .fatal →
    t.fault = true ∧ t.rsp = bareResponse .fatal ∧
    (t.Takes → ∃ u, step t = .next u ∧ u.phase = .halt ∧ u.reqReady = false ∧ u.faultO = true ∧
      u.ob = memWrites t.ob t.input.callerWrites)

/-- HALT is permanent until reset, and a halted core takes no request (R136). -/
def Obligations.HaltIsPermanentUntilReset : Prop :=
  ∀ s : State, s.phase = .halt → s.input.rst = false →
    s.reqReady = false ∧
    ∀ t, step s = .next t → t.phase = .halt ∧ t.fault = s.fault ∧ t.req = s.req ∧ t.rsp = s.rsp ∧ t.prog = s.prog

/-- FAULT reads 0 after reset, is set by the transaction that ends FATAL, and only reset clears it (R20). -/
def Obligations.FaultIsSticky : Prop :=
  State.reset.fault = false ∧
  ∀ s t : State, step s = .next t →
    (s.input.rst = true → t.fault = false) ∧
    (s.input.rst = false → s.fault = true → t.fault = true) ∧
    (s.input.rst = false → s.fault = false →
      (t.fault = true ↔ s.phase ≠ .resp ∧ t.phase = .resp ∧ t.rsp.status = .fatal)) ∧
    t.faultO = t.fault

/-- The tiers are not merged (R122): a checked command never answers FATAL and never sets FAULT, an unchecked one never
answers INSUFFICIENT; and no answer of the source does either. -/
def Obligations.TiersAreNotMerged : Prop :=
  (∀ (i : Instr) (s t : State), s.phase = .busy → exec i s = .next t →
    (i.checked = true → t.fault = s.fault ∧ (t.phase = .resp → t.rsp.status ≠ .fatal)) ∧
    (i.checked = false → t.phase = .resp ∧ t.rsp.status ≠ .insufficient)) ∧
  (∀ (s : State) (p : Prog) (a : Answer), s.phase = .busy →
    (s.takeAnswer p a).fault = s.fault ∧ ((s.takeAnswer p a).phase = .resp → (s.takeAnswer p a).rsp.status ≠ .fatal))

/-- A transaction that ends with a status other than OK answers no result: every field but the status and a source
failure's code is 0; the buffer is as the caller leaves it; of the core's state only FAULT changes, for FATAL alone
(R110). -/
def Obligations.NonOkOutcomesArePrecise : Prop :=
  ∀ s t : State, step s = .next t → s.input.rst = false → s.phase ≠ .resp → t.phase = .resp → t.rsp.status ≠ .ok →
    t.rsp = { Response.zero with status := t.rsp.status, errCode := t.rsp.errCode } ∧
    (t.rsp.status ≠ .srcError → t.rsp.errCode = 0) ∧
    t.ob = memWrites s.ob s.input.callerWrites ∧ t.rom = s.rom ∧ t.params = s.params ∧
    (t.rsp.status ≠ .fatal → t.fault = s.fault)

/-- The phases (R22): what `req_ready` and `rsp_valid` are in each, and the transitions between them. The model merges
BUSY into the accepting step for every command but DEC.S, as the rule allows (notes/assumptions/15.md). -/
def Obligations.PhasesFollowTheirTransitions : Prop :=
  ∀ s : State, s.Inv →
    (s.rspValid = true ↔ s.phase = .resp) ∧ (s.reqReady = true ↔ s.phase = .idle) ∧
    ∀ t, step s = .next t →
      (s.input.rst = true → t.phase = .idle) ∧
      (s.input.rst = false →
        match s.phase with
        | .idle => if s.input.req = none then t.phase = .idle else t.phase = .busy ∨ t.phase = .resp
        | .busy => t.phase = .busy ∨ t.phase = .resp
        | .resp => if s.input.rspReady = true then (if s.fault = true then t.phase = .halt else t.phase = .idle)
          else t.phase = .resp
        | .halt => t.phase = .halt)

/-- A response that is not taken is held: a step in RESP with `rsp_ready = 0` and no reset only reads its input, so the
response, the sampled request that the update of R28 reads, the progress and FAULT stay as they were (R17, R22). Where
the request is kept is the model's choice (notes/assumptions/6.md), and what reading an input does to the waiting
request and the buffer is that of notes/assumptions/3.md and 12.md. -/
def Obligations.HeldResponseIsKept : Prop :=
  ∀ s : State, s.phase = .resp → s.input.rst = false → s.protocolError = none → s.input.rspReady = false →
    ∃ t, step s = .next t ∧ t = s.readInput ∧ t.phase = .resp ∧ t.rspValid = true ∧ t.rsp = s.rsp ∧ t.req = s.req ∧
      t.fault = s.fault ∧ t.prog = s.prog ∧ t.rom = s.rom ∧ t.params = s.params ∧
      t.ob = memWrites s.ob s.input.callerWrites

/-- After an outcome that is not FATAL the core is back in IDLE once the response is taken, ready for a request (R111), and
keeps nothing of the transaction (R13). That the response and the sampled request then read 0 is the model's choice
(notes/assumptions/6.md). -/
def Obligations.RecoverableOutcomeReturnsToIdle : Prop :=
  ∀ s : State, s.Takes → s.fault = false →
    ∃ t, step s = .next t ∧ t.phase = .idle ∧ t.reqReady = true ∧ t.rspValid = false ∧ t.rsp = Response.zero ∧
      t.req = Request.zero ∧ t.rom = s.rom ∧ t.params = s.params

/-- The response of LUT.RD, ENC.* and DEC.U or DEC.C is a function of the request fields its row lists and of the ROM; what
DEC.S opens with is a function of its command, of `ctrl_in` when L = 0 and of the ROM, and what it does next a function
of its progress, the answer and the ROM. Nothing an earlier transaction left matters (R30). -/
def Obligations.ResponseDependsOnListedFieldsOnly : Prop :=
  ∀ s u : State, s.rom = u.rom →
    (s.req.ctrlIn = u.req.ctrlIn → ∃ r, exec .lutRd s = .next { s with phase := .resp, rsp := r } ∧
      exec .lutRd u = .next { u with phase := .resp, rsp := r }) ∧
    (∀ l d, s.req.val = u.req.val → s.req.outCap = u.req.outCap →
      (∃ r f, exec (.encU l d) s = .next { s with fault := s.fault || f, phase := .resp, rsp := r } ∧
        exec (.encU l d) u = .next { u with fault := u.fault || f, phase := .resp, rsp := r }) ∧
      (∃ r, exec (.encC l d) s = .next { s with phase := .resp, rsp := r } ∧
        exec (.encC l d) u = .next { u with phase := .resp, rsp := r })) ∧
    (∀ l d, s.RomIntact → (l = .split → s.req.ctrlIn = u.req.ctrlIn) → s.req.bufIn = u.req.bufIn →
      s.req.inLen = u.req.inLen →
      (∃ r f, exec (.decU l d) s = .next { s with fault := s.fault || f, phase := .resp, rsp := r } ∧
        exec (.decU l d) u = .next { u with fault := u.fault || f, phase := .resp, rsp := r }) ∧
      (∃ r, exec (.decC l d) s = .next { s with phase := .resp, rsp := r } ∧
        exec (.decC l d) u = .next { u with phase := .resp, rsp := r })) ∧
    (∀ l d, (l = .split → s.req.ctrlIn = u.req.ctrlIn) → progStart l d s.req = progStart l d u.req) ∧
    (∀ l d, s.RomIntact → (l = .split → s.req.ctrlIn = u.req.ctrlIn) →
      ∃ p, exec (.decS l d) s = .next { s with prog := some p } ∧ exec (.decS l d) u = .next { u with prog := some p }) ∧
    (∀ p a, s.params.errw = u.params.errw → s.phase = .busy → u.phase = .busy →
      (s.takeAnswer p a).prog = (u.takeAnswer p a).prog ∧ (s.takeAnswer p a).phase = (u.takeAnswer p a).phase ∧
      ((s.takeAnswer p a).phase = .resp → (s.takeAnswer p a).rsp = (u.takeAnswer p a).rsp))

/-- A step refuses only a use of the channels that is outside the spec (R128, R131), and faults, with the ROM intact,
only in HALT (R108): no accepted command is ever refused. That a late answer is known from a new one
(notes/assumptions/10.md), that a step under reset refuses nothing (9.md) and that HALT stops only when no input is left
(11.md) are the model's choices. -/
def Obligations.StopsOnlyOutsideTheSpec : Prop :=
  ∀ s : State,
    (∀ q, step s = .refused q → s.input.rst = false ∧
      ((q = .requestUnstable ∧ s.pending ≠ none ∧ s.input.req ≠ s.pending) ∨
       (q = .sourceUnasked ∧ (∃ a, s.input.src = .answer a) ∧ s.srcPull = false) ∨
       (q = .sourceUnasked ∧ (∃ a, s.input.src = .late a) ∧ s.abandoned = 0))) ∧
    (∀ q, s.RomIntact → step s = .fault q → q = .halted ∧ s.phase = .halt ∧ s.env = [] ∧ s.input.rst = false)

/-! ### The caller's output buffer -/

/-- The output buffer update (R28): each lane below 17 and below `out_cap` whose enable is 1 takes its byte; every other
byte keeps what it held. -/
def Obligations.OutputBufferUpdatedByLane : Prop :=
  ∀ (s : State) (a : Nat),
    (∀ h : a < laneCount, a < s.req.outCap → s.rsp.out.we[a] = true →
      memRead s.takeResponse.ob a = some s.rsp.out.data[a]) ∧
    (∀ h : a < laneCount, (s.req.outCap ≤ a ∨ s.rsp.out.we[a] = false) →
      memRead s.takeResponse.ob a = memRead s.ob a) ∧
    (laneCount ≤ a → memRead s.takeResponse.ob a = memRead s.ob a)

/-- The core writes the caller's buffer in one step alone, the taking of a response, as one update, and a response with a
status other than OK writes no byte (R36). That the caller's own writes of the same step come before the update is the
model's choice (notes/assumptions/12.md), and that a step under reset takes no response is DEDUCED (16.md). -/
def Obligations.OnlyTakingAnOkResponseWrites : Prop :=
  ∀ s t : State, step s = .next t →
    (¬ s.Takes → t.ob = memWrites s.ob s.input.callerWrites) ∧
    (s.Takes → t.ob = memApply (memWrites s.ob s.input.callerWrites) s.req.outCap s.rsp.out) ∧
    (s.RspAgrees → s.rsp.status ≠ .ok → ∀ a, memRead t.ob a = memRead (memWrites s.ob s.input.callerWrites) a)

/-- An encode that is accepted with capacity for `need` and whose response is taken at once leaves the bytes of the unit in
lanes 0 to need-1 of the buffer and every other byte as it was, and the core in IDLE (R28, R71, R75, R76). -/
def Obligations.EncodeTransactionWritesUnit : Prop :=
  ∀ (l : Layout) (d : Bool) (s : State) (r : Request) (e : Encoding) (x y : Input) (rest : List Input),
    s.Accepts r → (decode s.params r.cmd = .instr (.encU l d) ∨ decode s.params r.cmd = .instr (.encC l d)) →
    e = encQuad l d r.val → e.need ≤ r.outCap % 2 ^ s.params.lenw →
    s.env = x :: y :: rest → x.callerWrites = [] → y = { Input.quiet with rspReady := true } →
    ∃ t, Host.Core.run Sys2Proof.core 2 s = .next t ∧ t.phase = .idle ∧ t.fault = false ∧ t.env = rest ∧
      ∀ a, memRead t.ob a = if a < e.need then some ((unitBytes l e.ctrl e.stored e.lens).getD a 0#8) else memRead s.ob a

/-! ### Reset -/

/-- The state right after reset (R29). -/
def Obligations.ResetStateIsAsStated : Prop :=
  State.reset.fault = false ∧ State.reset.faultO = false ∧ State.reset.phase = .idle ∧ State.reset.reqReady = true ∧
  State.reset.rspValid = false ∧ State.reset.srcPull = false ∧ State.reset.prog = none ∧
  statusCode State.reset.rsp.status = 0#3 ∧ State.reset.rsp = Response.zero ∧ State.reset.rom = romContents

/-- Reset brings the core from every state, HALT among them, to its reset state; the ROM, the parameters and the caller's
buffer are not changed by it; and reset is the only event that clears FAULT or leaves HALT (R123, R29, R66, R124). That a
response ready to be taken in the very step of the reset is not applied to the buffer is DEDUCED
(notes/assumptions/16.md), and that the caller's own writes of that step still happen is the model's choice (12.md). -/
def Obligations.ResetFromEveryState : Prop :=
  (∀ s t : State, step s = .next t → (s.fault = true ∧ t.fault = false) ∨ (s.phase = .halt ∧ t.phase ≠ .halt) →
    s.input.rst = true) ∧
  ∀ s : State, s.input.rst = true →
    ∃ t, step s = .next t ∧ t.fault = false ∧ t.phase = .idle ∧ t.rspValid = false ∧ t.srcPull = false ∧ t.prog = none ∧
      t.rsp = Response.zero ∧ t.reqReady = true ∧ t.rom = s.rom ∧ t.params = s.params ∧
      t.ob = memWrites s.ob s.input.callerWrites

/-- An answer that comes after a reset abandoned its pull is ignored: the core's own state is what it is with no answer
(R124). That the model knows a late answer from a new one is its own choice (DEDUCED, DESIGN CHOICE, notes/assumptions/10.md). -/
def Obligations.LateAnswerIsIgnored : Prop :=
  ∀ (s : State) (a : Answer) (x : Input) (rest : List Input), 0 < s.abandoned → s.env = x :: rest → x.rst = false →
    x.src = .late a →
    ∀ t, step s = .next t → ∃ u, step { s with env := { x with src := .quiet } :: rest } = .next u ∧
      t = { u with abandoned := s.abandoned - 1 }

/-- A reset abandons the pull that is outstanding, so that its answer, if it comes later, is ignored and stops nothing
(R124): the count of abandoned pulls rises by one, an answer in the very step of the reset settles all that are owed, and
the late answer that follows a reset in mid-pull is no protocol error. The count, and telling a late answer from a new
one, are the model's choices (notes/assumptions/10.md). -/
def Obligations.ResetAbandonsOutstandingPull : Prop :=
  ∀ s : State, s.input.rst = true →
    ∃ t, step s = .next t ∧ t.srcPull = false ∧
      (s.input.src = .quiet → t.abandoned = s.abandoned + if s.srcPull = true then 1 else 0) ∧
      (∀ a, s.input.src = .late a → t.abandoned = s.abandoned - 1 + if s.srcPull = true then 1 else 0) ∧
      (∀ a, s.input.src = .answer a → t.abandoned = 0) ∧
      (s.srcPull = true → (∀ a, s.input.src ≠ .answer a) → ∀ a, t.input.src = .late a →
        0 < t.abandoned ∧ t.protocolError = none ∧ (s.RomIntact → ∃ u, step t = .next u))

/-! ### Invariants -/

/-- Every step keeps the invariant (R13, R17, R20, R22, R26, R66, R103). That the request reads 0 between transactions and
the response reads 0 outside RESP is the model's choice but for the response after reset (R29; DEDUCED, DESIGN CHOICE,
notes/assumptions/6.md). -/
def Obligations.InvariantIsKept : Prop :=
  ∀ s t : State, s.Inv → step s = .next t → t.Inv

/-- The reset state meets the invariant (R29). That the sampled request is 0 at reset is the model's choice
(notes/assumptions/6.md), and the buffer with nothing listed is that of 12.md. -/
def Obligations.ResetStateMeetsInvariant : Prop := State.reset.Inv
end

