-- ==== Sys2Proof/Laws/Memory.lean ====
section
/-!
SUPPORT. The laws of the caller's output buffer: a read after a write, and every operation keeps the canonical form.
The laws of the output lanes: what a write sets and what it leaves alone.
-/

namespace Sys2Proof.Machine

/-- A read after a write: the byte written at its lane, any other lane as before. -/
theorem memRead_memWrite (m : Memory) (a : Nat) (b : Byte) (x : Nat) :
    memRead (memWrite m a b) x = if x = a then some b else memRead m x := by
  induction m with
  | nil => simp [memWrite, memRead]
  | cons e m ih =>
    obtain ⟨y, c⟩ := e
    simp only [memWrite]
    split
    · simp [memRead]
    · split
      · subst_vars
        simp only [memRead]
        split <;> rfl
      · simp only [memRead, ih]
        by_cases hxy : x = y
        · subst hxy; simp; omega
        · simp [hxy]

/-- Every lane listed after a write is the lane written or was listed before. -/
theorem memWrite_lanes (m : Memory) (a : Nat) (b : Byte) : ∀ e ∈ memWrite m a b, e.1 = a ∨ e ∈ m := by
  induction m with
  | nil => simp [memWrite]
  | cons e m ih =>
    intro f hf
    simp only [memWrite] at hf
    split at hf
    · simp only [List.mem_cons] at hf ⊢
      rcases hf with rfl | h
      · simp
      · exact .inr h
    · split at hf
      · simp only [List.mem_cons] at hf ⊢
        rcases hf with rfl | h
        · simp
        · exact .inr (.inr h)
      · simp only [List.mem_cons] at hf ⊢
        rcases hf with h | h
        · exact .inr (.inl h)
        · rcases ih f h with h | h
          · exact .inl h
          · exact .inr (.inr h)

/-- A write keeps the canonical form. -/
theorem memWrite_wf {m : Memory} (h : Memory.wf m) (a : Nat) (b : Byte) : Memory.wf (memWrite m a b) := by
  induction m with
  | nil => simp [memWrite, Memory.wf]
  | cons e m ih =>
    obtain ⟨y, c⟩ := e
    have ⟨hy, hm⟩ := List.pairwise_cons.mp h
    simp only [memWrite]
    split
    · rename_i hlt
      refine List.pairwise_cons.mpr ⟨?_, h⟩
      intro f hf
      rcases List.mem_cons.mp hf with rfl | hf
      · exact hlt
      · exact Nat.lt_trans hlt (hy f hf)
    · split
      · rename_i heq
        subst heq
        exact List.pairwise_cons.mpr ⟨hy, hm⟩
      · refine List.pairwise_cons.mpr ⟨?_, ih hm⟩
        intro f hf
        rcases memWrite_lanes m a b f hf with h | h
        · simp only; omega
        · exact hy f h

/-- The caller's writes keep the canonical form. -/
theorem memWrites_wf {m : Memory} (h : Memory.wf m) (ws : List Host.Cell) : Memory.wf (memWrites m ws) := by
  induction ws generalizing m with
  | nil => exact h
  | cons w ws ih => exact ih (memWrite_wf h w.1 w.2)

/-- One lane of the output buffer update keeps the canonical form. -/
theorem memApplyLane_wf {m : Memory} (h : Memory.wf m) (cap : Nat) (o : OutLanes) (j : Nat) :
    Memory.wf (memApplyLane cap o m j) := by
  unfold memApplyLane
  split
  · exact memWrite_wf h _ _
  · exact h

/-- The lanes applied one after another keep the canonical form. -/
theorem foldl_memApplyLane_wf {m : Memory} (h : Memory.wf m) (cap : Nat) (o : OutLanes) (js : List Nat) :
    Memory.wf (js.foldl (memApplyLane cap o) m) := by
  induction js generalizing m with
  | nil => exact h
  | cons j js ih => exact ih (memApplyLane_wf h cap o j)

/-- The output buffer update keeps the canonical form. -/
theorem memApply_wf {m : Memory} (h : Memory.wf m) (cap : Nat) (o : OutLanes) : Memory.wf (memApply m cap o) :=
  foldl_memApplyLane_wf h cap o _

/-- A lane that the update does not enable leaves the buffer as it is. -/
theorem memApplyLane_skip (m : Memory) (cap : Nat) (o : OutLanes) (j : Nat)
    (h : ¬ (j < cap ∧ o.we[j]?.getD false = true)) : memApplyLane cap o m j = m := by
  simp [memApplyLane, h]

/-- Applying lanes, none of which is enabled, leaves the buffer as it is. -/
theorem foldl_memApplyLane_skip (m : Memory) (cap : Nat) (o : OutLanes) (js : List Nat)
    (h : ∀ j ∈ js, ¬ (j < cap ∧ o.we[j]?.getD false = true)) : js.foldl (memApplyLane cap o) m = m := by
  induction js with
  | nil => rfl
  | cons j js ih =>
    rw [List.foldl_cons, memApplyLane_skip m cap o j (h j (by simp))]
    exact ih fun k hk => h k (by simp [hk])

/-- What a lane of the buffer reads as after lanes have been applied one after another. -/
theorem memRead_foldl_memApplyLane (m : Memory) (cap : Nat) (o : OutLanes) (js : List Nat) (a : Nat) :
    memRead (js.foldl (memApplyLane cap o) m) a =
      if a ∈ js ∧ a < cap ∧ o.we[a]?.getD false = true then some (laneRead o.data a) else memRead m a := by
  induction js generalizing m with
  | nil => simp
  | cons j js ih =>
    rw [List.foldl_cons, ih]
    by_cases hen : j < cap ∧ o.we[j]?.getD false = true
    · simp only [memApplyLane, hen, and_self, if_true, memRead_memWrite, List.mem_cons]
      by_cases haj : a = j
      · subst haj; simp [hen]
      · simp [haj]
    · rw [memApplyLane_skip m cap o j hen]
      by_cases haj : a = j
      · subst haj; simp [hen]
      · simp [haj]

/-- What a lane of the buffer reads as after the output buffer update (R28). -/
theorem memRead_memApply (m : Memory) (cap : Nat) (o : OutLanes) (a : Nat) :
    memRead (memApply m cap o) a =
      if a < laneCount ∧ a < cap ∧ o.we[a]?.getD false = true then some (laneRead o.data a) else memRead m a := by
  rw [memApply, memRead_foldl_memApplyLane]
  simp

/-- A response that enables no lane leaves the buffer as it is. -/
theorem memApply_clear (m : Memory) (cap : Nat) : memApply m cap OutLanes.clear = m := by
  apply foldl_memApplyLane_skip
  intro j _ h
  simp [OutLanes.clear, Vector.getElem?_replicate] at h
  split at h <;> simp_all

/-- The byte of a lane below 17. -/
theorem laneRead_eq (b : Lanes) (j : Nat) (h : j < laneCount) : laneRead b j = b[j] := by
  simp [laneRead, h]

/-- The byte of a lane after a lane write. -/
theorem laneRead_write (o : OutLanes) (i : Nat) (b : Byte) (j : Nat) :
    laneRead (o.write i b).data j = if i = j ∧ j < laneCount then b else laneRead o.data j := by
  simp only [laneRead, OutLanes.write, Vector.getElem?_setIfInBounds]
  by_cases hij : i = j
  · subst hij
    by_cases hi : i < laneCount <;> simp [hi]
  · simp [hij]

/-- The enable of a lane after a lane write. -/
theorem enable_write (o : OutLanes) (i : Nat) (b : Byte) (j : Nat) :
    (o.write i b).we[j]?.getD false = (if i = j ∧ j < laneCount then true else o.we[j]?.getD false) := by
  simp only [OutLanes.write, Vector.getElem?_setIfInBounds]
  by_cases hij : i = j
  · subst hij
    by_cases hi : i < laneCount <;> simp [hi]
  · simp [hij]

end Sys2Proof.Machine
end

