-- ==== Sys2Proof/Laws/Rom.lean ====
section
/-!
SUPPORT. The laws of the control byte and the ROM: a word read from the contents of R64 is the word of its address, its
length and sum bytes are those of the formula, and the bounds that follow.
-/

namespace Sys2Proof.Machine

/-- An element of the four values of a function. -/
@[simp] theorem ofFn_get {α : Type} (f : Fin 4 → α) (i : Fin 4) : (Four.ofFn f).get i = f i := by
  match i with
  | 0 => rfl
  | 1 => rfl
  | 2 => rfl
  | 3 => rfl

/-- An element of a mapped group. -/
@[simp] theorem map_get {α β : Type} (f : α → β) (q : Four α) (i : Fin 4) : (q.map f).get i = f (q.get i) := by
  match i with
  | 0 => rfl
  | 1 => rfl
  | 2 => rfl
  | 3 => rfl

/-- Two groups with equal elements are equal. -/
theorem four_ext {α : Type} {p q : Four α} (h : ∀ i, p.get i = q.get i) : p = q := by
  obtain ⟨a, b, c, d⟩ := p
  obtain ⟨a', b', c', d'⟩ := q
  have h0 : a = a' := h 0
  have h1 : b = b' := h 1
  have h2 : c = c' := h 2
  have h3 : d = d' := h 3
  subst h0 h1 h2 h3
  rfl

/-- The four fields of a byte, most significant first, give the byte back. -/
theorem byte_of_fields (c : Byte) :
    BitVec.ofNat 8 (64 * (ctrlField c 0).toNat + 16 * (ctrlField c 1).toNat + 4 * (ctrlField c 2).toNat +
      (ctrlField c 3).toNat) = c := by
  apply BitVec.eq_of_toNat_eq
  simp only [ctrlField, BitVec.extractLsb'_toNat, BitVec.toNat_ofNat, Nat.shiftRight_eq_div_pow]
  have := c.isLt
  simp
  omega

/-- A word read from the contents of R64 is the word of its address. -/
theorem romRead_contents (c : Byte) : romRead romContents c = lutWord c := by
  have h := byte_of_fields c
  simp only [romRead, romContents, ofFn_get, BitVec.val_toFin]
  rw [h]

/-- Byte `len<i>` of the word of `c` is the length of field `i`. -/
theorem wordLen_lutWord (c : Byte) (i : Fin 4) : wordLen (lutWord c) i = ctrlLen c i := by
  have key : ∀ a b d e f : Byte, ∀ i : Fin 4,
      wordLen (a ++ b ++ d ++ e ++ f) i = (Four.mk a b d e).get i := by
    intro a b d e f i
    match i with
    | 0 | 1 | 2 | 3 =>
      apply BitVec.eq_of_getLsbD_eq
      intro j hj
      simp only [wordLen, BitVec.getLsbD_extractLsb', hj, decide_true, Bool.true_and, Four.get]
      repeat rw [BitVec.getLsbD_append]
      interval_cases j <;> rfl
  rw [lutWord, key]
  match i with
  | 0 => rfl
  | 1 => rfl
  | 2 => rfl
  | 3 => rfl

/-- Byte `sum` of the word of `c` is the sum of its lengths. -/
theorem wordSum_lutWord (c : Byte) : wordSum (lutWord c) = ctrlSum c := by
  apply BitVec.eq_of_getLsbD_eq
  intro j hj
  simp only [wordSum, lutWord, BitVec.getLsbD_extractLsb', hj, decide_true, Bool.true_and, Nat.zero_add]
  rw [BitVec.getLsbD_append]
  simp [hj]

/-- A length as a natural number: the field's value plus one. -/
theorem ctrlLen_toNat (c : Byte) (i : Fin 4) : (ctrlLen c i).toNat = (ctrlField c i).toNat + 1 := by
  have := (ctrlField c i).isLt
  simp [ctrlLen, BitVec.toNat_add]
  omega

/-- The length of field `i` by the formula of R50. -/
theorem ctrlLens_get (c : Byte) (i : Fin 4) : (ctrlLens c).get i = (ctrlLen c i).toNat := by
  rw [ctrlLens, ofFn_get, ctrlLen_toNat]
  congr 1
  have h3 : ∀ n : Nat, n &&& 3 = n % 4 := fun n => Nat.and_two_pow_sub_one_eq_mod n 2
  simp [ctrlField, BitVec.toNat_and, BitVec.toNat_ushiftRight, h3]

/-- Every length is in 1..4 (R50). -/
theorem ctrlLens_bounds (c : Byte) (i : Fin 4) : 1 ≤ (ctrlLens c).get i ∧ (ctrlLens c).get i ≤ 4 := by
  have := (ctrlField c i).isLt
  rw [ctrlLens_get, ctrlLen_toNat]
  omega

/-- The sum of the lengths is in [4,16] (R54). -/
theorem ctrlLens_total_bounds (c : Byte) : 4 ≤ (ctrlLens c).total ∧ (ctrlLens c).total ≤ 16 := by
  have h0 := ctrlLens_bounds c 0
  have h1 := ctrlLens_bounds c 1
  have h2 := ctrlLens_bounds c 2
  have h3 := ctrlLens_bounds c 3
  simp only [Four.get] at h0 h1 h2 h3
  simp only [Four.total]
  omega

/-- The lengths that the contents of R64 give a control byte. -/
theorem romLens_contents (c : Byte) : romLens romContents c = ctrlLens c := by
  apply four_ext
  intro i
  rw [romLens, romRead_contents, wordLens, ofFn_get, wordLen_lutWord, ctrlLens_get]

/-- The sum that the contents of R64 give a control byte. -/
theorem romSum_contents (c : Byte) : romSum romContents c = (ctrlLens c).total := by
  have h0 := (ctrlField c 0).isLt
  have h1 := (ctrlField c 1).isLt
  have h2 := (ctrlField c 2).isLt
  have h3 := (ctrlField c 3).isLt
  have t : (ctrlLens c).total = (ctrlLens c).get 0 + (ctrlLens c).get 1 + (ctrlLens c).get 2 + (ctrlLens c).get 3 := rfl
  rw [romSum, romRead_contents, wordSum_lutWord, t]
  simp only [ctrlLens_get, ctrlSum, BitVec.toNat_add, ctrlLen_toNat]
  omega

/-- `need` by the contents of R64. -/
theorem romNeed_contents (l : Layout) (c : Byte) : romNeed romContents l c = quadNeed l c := by
  rw [romNeed, romSum_contents, quadNeed]

/-- The size of the layout is 0 or 1. -/
theorem layout_size_le (l : Layout) : l.size ≤ 1 := by cases l <;> decide

/-- The lanes that a quad's data occupy end at `need` (R81). -/
theorem quadNeed_eq (l : Layout) (c : Byte) : l.size + (ctrlLens c).total = quadNeed l c := by
  rw [quadNeed, Nat.add_comm]

/-- `need` is at least 4 and at most 17 (R57, R73). -/
theorem quadNeed_bounds (l : Layout) (c : Byte) : 4 ≤ quadNeed l c ∧ quadNeed l c ≤ laneCount := by
  have := ctrlLens_total_bounds c
  have := layout_size_le l
  simp only [quadNeed, laneCount]
  omega

end Sys2Proof.Machine
end

