-- ==== Sys2Proof/Laws/Lanes.lean ====
section
/-!
SUPPORT. The laws of the byte formats: what the formatter puts on each lane (R70, R71), and what a big-endian read of a
list of bytes gives (R82).
-/

namespace Sys2Proof.Machine

/-- `blen` is in 1..4 (R68). -/
theorem blen_bounds (x : Word) : 1 ≤ blen x ∧ blen x ≤ 4 := by
  unfold blen
  split
  · omega
  · split
    · omega
    · split <;> omega

/-- A value fits the bytes that `blen` gives it (R68). -/
theorem lt_pow_blen (x : Word) : x.toNat < 2 ^ (8 * blen x) := by
  have := x.isLt
  unfold blen
  split
  · simpa
  · split
    · simpa
    · split <;> simpa

/-- The lanes that placing one value writes, and those it leaves alone, for the first `m` of its bytes. -/
theorem laneRead_placeBytes (off : Nat) (x : Word) (n m : Nat) (o : OutLanes) (j : Nat) :
    laneRead ((List.range m).foldl (fun o k => o.write (off + k) (beByte x n k)) o).data j =
      if off ≤ j ∧ j < off + m ∧ j < laneCount then beByte x n (j - off) else laneRead o.data j := by
  induction m with
  | zero => simp; intro h1 h2; omega
  | succ m ih =>
    rw [List.range_succ, List.foldl_append, List.foldl_cons, List.foldl_nil, laneRead_write, ih]
    by_cases hj : off + m = j ∧ j < laneCount
    · rw [if_pos hj, if_pos (by omega)]
      congr 1; omega
    · rw [if_neg hj]
      by_cases h2 : off ≤ j ∧ j < off + m ∧ j < laneCount
      · rw [if_pos h2, if_pos (by omega)]
      · rw [if_neg h2, if_neg (by omega)]

/-- The enables that placing one value sets, and those it leaves alone, for the first `m` of its bytes. -/
theorem enable_placeBytes (off : Nat) (x : Word) (n m : Nat) (o : OutLanes) (j : Nat) :
    ((List.range m).foldl (fun o k => o.write (off + k) (beByte x n k)) o).we[j]?.getD false =
      if off ≤ j ∧ j < off + m ∧ j < laneCount then true else o.we[j]?.getD false := by
  induction m with
  | zero => simp; intro h1 h2; omega
  | succ m ih =>
    rw [List.range_succ, List.foldl_append, List.foldl_cons, List.foldl_nil, enable_write, ih]
    by_cases hj : off + m = j ∧ j < laneCount
    · rw [if_pos hj, if_pos (by omega)]
    · rw [if_neg hj]
      by_cases h2 : off ≤ j ∧ j < off + m ∧ j < laneCount
      · rw [if_pos h2, if_pos (by omega)]
      · rw [if_neg h2, if_neg (by omega)]

/-- The lanes after one value has been placed (R71). -/
theorem laneRead_placeValue (off : Nat) (x : Word) (n : Nat) (o : OutLanes) (j : Nat) :
    laneRead (placeValue off x n o).data j =
      if off ≤ j ∧ j < off + n ∧ j < laneCount then beByte x n (j - off) else laneRead o.data j :=
  laneRead_placeBytes off x n n o j

/-- The enables after one value has been placed (R71). -/
theorem enable_placeValue (off : Nat) (x : Word) (n : Nat) (o : OutLanes) (j : Nat) :
    (placeValue off x n o).we[j]?.getD false =
      if off ≤ j ∧ j < off + n ∧ j < laneCount then true else o.we[j]?.getD false :=
  enable_placeBytes off x n n o j

/-- No lane is enabled and every lane is 0 at the start of the placement (R71). -/
theorem clear_lane (j : Nat) : laneRead OutLanes.clear.data j = 0#8 ∧ OutLanes.clear.we[j]?.getD false = false := by
  by_cases hj : j < laneCount <;> simp [laneRead, OutLanes.clear, hj]

/-- Byte `k` of the formatter as a quotient. -/
theorem beByte_eq (x : Word) (n k : Nat) : beByte x n k = BitVec.ofNat 8 (x.toNat / 2 ^ (8 * (n - 1 - k))) := by
  apply BitVec.eq_of_toNat_eq
  simp [beByte, BitVec.extractLsb'_toNat, Nat.shiftRight_eq_div_pow]

/-- The bytes of a value are as many as its length. -/
@[simp] theorem beBytes_length (x : Word) (n : Nat) : (beBytes x n).length = n := by simp [beBytes]

/-- A byte of a value. -/
theorem beBytes_getD (x : Word) (n k : Nat) : (beBytes x n).getD k 0#8 = if k < n then beByte x n k else 0#8 := by
  by_cases hk : k < n
  · rw [if_pos hk, beByte_eq, List.getD_eq_getElem _ _ (by simpa using hk)]
    simp [beBytes]
  · rw [if_neg hk, List.getD_eq_default _ _ (by simpa using hk)]

/-- One byte more on a big-endian accumulator (R82). -/
theorem pushByte_eq (acc : Word) (b : Byte) : pushByte acc b = BitVec.ofNat 32 (256 * acc.toNat + b.toNat) := by
  have h : pushByte acc b = (acc <<< 8) + b.setWidth 32 := by
    rw [pushByte]
    refine (BitVec.add_eq_or_of_and_eq_zero _ _ ?_).symm
    apply BitVec.eq_of_getLsbD_eq
    intro i hi
    simp only [BitVec.getLsbD_and, BitVec.getLsbD_shiftLeft, BitVec.getLsbD_setWidth]
    by_cases h8 : i < 8
    · simp [h8]
    · have : b.getLsbD i = false := BitVec.getLsbD_of_ge b i (by omega)
      simp [this]
  rw [h]
  apply BitVec.eq_of_toNat_eq
  have := b.isLt
  have := acc.isLt
  simp [BitVec.toNat_add, BitVec.toNat_shiftLeft, Nat.shiftLeft_eq]
  omega

/-- A big-endian accumulation from a value already read. -/
theorem foldl_pushByte (bs : List Byte) (a : Nat) :
    bs.foldl pushByte (BitVec.ofNat 32 a) = BitVec.ofNat 32 (bs.foldl (fun a b => 256 * a + b.toNat) a) := by
  induction bs generalizing a with
  | nil => rfl
  | cons b bs ih =>
    rw [List.foldl_cons, List.foldl_cons, ← ih, pushByte_eq]
    congr 1
    apply BitVec.eq_of_toNat_eq
    simp
    omega

/-- The accumulation of a list of bytes is its big-endian value (R82). -/
theorem foldl_pushByte_zero (bs : List Byte) : bs.foldl pushByte 0#32 = BitVec.ofNat 32 (beValue bs) :=
  foldl_pushByte bs 0

/-- The big-endian value with one byte more at the end. -/
theorem beValue_append (bs : List Byte) (b : Byte) : beValue (bs ++ [b]) = 256 * beValue bs + b.toNat := by
  simp [beValue]

/-- A big-endian value is below 2^(8n) for n bytes (R82). -/
theorem beValue_lt (bs : List Byte) : beValue bs < 2 ^ (8 * bs.length) := by
  induction bs using List.reverseRecOn with
  | nil => simp [beValue]
  | append_singleton bs b ih =>
    have := b.isLt
    rw [beValue_append, List.length_append, List.length_singleton, Nat.mul_add, Nat.pow_add]
    omega

/-- The bytes of lanes `o`, ..., `o+n-1` as a list. -/
theorem lanes_slice (b : Lanes) (o n : Nat) (h : o + n ≤ laneCount) :
    (List.range n).map (fun k => laneRead b (o + k)) = (b.toList.drop o).take n := by
  apply List.ext_getElem
  · simp; omega
  · intro k h1 h2
    simp at h1
    have hk : o + k < laneCount := by omega
    simp only [List.getElem_map, List.getElem_range, List.getElem_take, List.getElem_drop, Vector.getElem_toList]
    exact laneRead_eq b (o + k) hk

/-- A read of lanes inside the buffer is the big-endian value of those lanes (R82). -/
theorem rdBE_eq (b : Lanes) (o n : Nat) (h : o + n ≤ laneCount) :
    rdBE b o n = BitVec.ofNat 32 (beValue ((b.toList.drop o).take n)) := by
  rw [← foldl_pushByte_zero, ← lanes_slice b o n h, List.foldl_map]
  rfl

/-- The lanes of value `i` end at or before `need` (R81). -/
theorem laneOffset_le (l : Layout) (c : Byte) (i : Fin 4) :
    laneOffset l (ctrlLens c) i + (ctrlLens c).get i ≤ quadNeed l c := by
  rw [← quadNeed_eq]
  match i with
  | 0 | 1 | 2 | 3 => simp only [laneOffset, Four.before, Four.get, Four.total]; omega

/-- Raw reconstruction from the lanes of a buffer gives the quad of its bytes (R83). -/
theorem decRaw_eq_quadOf (l : Layout) (d : Bool) (b : Lanes) (c : Byte) :
    returnedQuad d (decRaw l b (ctrlLens c)) = quadOf l d c b.toList := by
  rw [quadOf, decRaw]
  congr 1
  apply four_ext
  intro i
  rw [ofFn_get, ofFn_get]
  exact rdBE_eq b _ _ (Nat.le_trans (laneOffset_le l c i) (quadNeed_bounds l c).2)

end Sys2Proof.Machine
end

