-- ==== Sys2Proof/Laws/State.lean ====
section
/-!
SUPPORT. One lemma per field per update of the state, so that no later proof unfolds a record update.
-/

namespace Sys2Proof.Machine

@[simp] theorem respond_params (s : State) (r : Response) : (s.respond r).params = s.params := rfl
@[simp] theorem respond_rom (s : State) (r : Response) : (s.respond r).rom = s.rom := rfl
@[simp] theorem respond_fault (s : State) (r : Response) : (s.respond r).fault = s.fault := rfl
@[simp] theorem respond_phase (s : State) (r : Response) : (s.respond r).phase = .resp := rfl
@[simp] theorem respond_rsp (s : State) (r : Response) : (s.respond r).rsp = r := rfl
@[simp] theorem respond_prog (s : State) (r : Response) : (s.respond r).prog = s.prog := rfl
@[simp] theorem respond_req (s : State) (r : Response) : (s.respond r).req = s.req := rfl
@[simp] theorem respond_ob (s : State) (r : Response) : (s.respond r).ob = s.ob := rfl
@[simp] theorem respond_pending (s : State) (r : Response) : (s.respond r).pending = s.pending := rfl
@[simp] theorem respond_abandoned (s : State) (r : Response) : (s.respond r).abandoned = s.abandoned := rfl
@[simp] theorem respond_env (s : State) (r : Response) : (s.respond r).env = s.env := rfl

@[simp] theorem raise_params (s : State) (x : Raise) : (s.raise x).params = s.params := rfl
@[simp] theorem raise_rom (s : State) (x : Raise) : (s.raise x).rom = s.rom := rfl
@[simp] theorem raise_fault (s : State) (x : Raise) : (s.raise x).fault = (s.fault || raiseFaults x) := rfl
@[simp] theorem raise_phase (s : State) (x : Raise) : (s.raise x).phase = .resp := rfl
@[simp] theorem raise_rsp (s : State) (x : Raise) : (s.raise x).rsp = { Response.zero with status := raiseStatus x, errCode := raiseCode x } := rfl
@[simp] theorem raise_prog (s : State) (x : Raise) : (s.raise x).prog = s.prog := rfl
@[simp] theorem raise_req (s : State) (x : Raise) : (s.raise x).req = s.req := rfl
@[simp] theorem raise_ob (s : State) (x : Raise) : (s.raise x).ob = s.ob := rfl
@[simp] theorem raise_pending (s : State) (x : Raise) : (s.raise x).pending = s.pending := rfl
@[simp] theorem raise_abandoned (s : State) (x : Raise) : (s.raise x).abandoned = s.abandoned := rfl
@[simp] theorem raise_env (s : State) (x : Raise) : (s.raise x).env = s.env := rfl

@[simp] theorem takeResponse_params (s : State) : (s.takeResponse).params = s.params := rfl
@[simp] theorem takeResponse_rom (s : State) : (s.takeResponse).rom = s.rom := rfl
@[simp] theorem takeResponse_fault (s : State) : (s.takeResponse).fault = s.fault := rfl
@[simp] theorem takeResponse_phase (s : State) : (s.takeResponse).phase = if s.fault then .halt else .idle := rfl
@[simp] theorem takeResponse_rsp (s : State) : (s.takeResponse).rsp = Response.zero := rfl
@[simp] theorem takeResponse_prog (s : State) : (s.takeResponse).prog = s.prog := rfl
@[simp] theorem takeResponse_req (s : State) : (s.takeResponse).req = Request.zero := rfl
@[simp] theorem takeResponse_ob (s : State) : (s.takeResponse).ob = memApply s.ob s.req.outCap s.rsp.out := rfl
@[simp] theorem takeResponse_pending (s : State) : (s.takeResponse).pending = s.pending := rfl
@[simp] theorem takeResponse_abandoned (s : State) : (s.takeResponse).abandoned = s.abandoned := rfl
@[simp] theorem takeResponse_env (s : State) : (s.takeResponse).env = s.env := rfl

@[simp] theorem resetCore_params (s : State) (x : SrcSignal) : (s.resetCore x).params = s.params := rfl
@[simp] theorem resetCore_rom (s : State) (x : SrcSignal) : (s.resetCore x).rom = s.rom := rfl
@[simp] theorem resetCore_fault (s : State) (x : SrcSignal) : (s.resetCore x).fault = false := rfl
@[simp] theorem resetCore_phase (s : State) (x : SrcSignal) : (s.resetCore x).phase = .idle := rfl
@[simp] theorem resetCore_rsp (s : State) (x : SrcSignal) : (s.resetCore x).rsp = Response.zero := rfl
@[simp] theorem resetCore_prog (s : State) (x : SrcSignal) : (s.resetCore x).prog = none := rfl
@[simp] theorem resetCore_req (s : State) (x : SrcSignal) : (s.resetCore x).req = Request.zero := rfl
@[simp] theorem resetCore_ob (s : State) (x : SrcSignal) : (s.resetCore x).ob = s.ob := rfl
@[simp] theorem resetCore_pending (s : State) (x : SrcSignal) : (s.resetCore x).pending = none := rfl
@[simp] theorem resetCore_abandoned (s : State) (x : SrcSignal) : (s.resetCore x).abandoned = abandonedAtReset s x := rfl
@[simp] theorem resetCore_env (s : State) (x : SrcSignal) : (s.resetCore x).env = s.env := rfl

@[simp] theorem resetStep_params (s : State) (x : Input) : (s.resetStep x).params = s.params := rfl
@[simp] theorem resetStep_rom (s : State) (x : Input) : (s.resetStep x).rom = s.rom := rfl
@[simp] theorem resetStep_fault (s : State) (x : Input) : (s.resetStep x).fault = false := rfl
@[simp] theorem resetStep_phase (s : State) (x : Input) : (s.resetStep x).phase = .idle := rfl
@[simp] theorem resetStep_rsp (s : State) (x : Input) : (s.resetStep x).rsp = Response.zero := rfl
@[simp] theorem resetStep_prog (s : State) (x : Input) : (s.resetStep x).prog = none := rfl
@[simp] theorem resetStep_req (s : State) (x : Input) : (s.resetStep x).req = Request.zero := rfl
@[simp] theorem resetStep_ob (s : State) (x : Input) : (s.resetStep x).ob = memWrites s.ob x.callerWrites := rfl
@[simp] theorem resetStep_pending (s : State) (x : Input) : (s.resetStep x).pending = none := rfl
@[simp] theorem resetStep_abandoned (s : State) (x : Input) : (s.resetStep x).abandoned = abandonedAtReset s x.src := rfl
@[simp] theorem resetStep_env (s : State) (x : Input) : (s.resetStep x).env = s.env.tail := rfl

@[simp] theorem accept_params (s : State) (r : Request) : (s.accept r).params = s.params := rfl
@[simp] theorem accept_rom (s : State) (r : Request) : (s.accept r).rom = s.rom := rfl
@[simp] theorem accept_fault (s : State) (r : Request) : (s.accept r).fault = s.fault := rfl
@[simp] theorem accept_phase (s : State) (r : Request) : (s.accept r).phase = .busy := rfl
@[simp] theorem accept_rsp (s : State) (r : Request) : (s.accept r).rsp = s.rsp := rfl
@[simp] theorem accept_prog (s : State) (r : Request) : (s.accept r).prog = s.prog := rfl
@[simp] theorem accept_req (s : State) (r : Request) : (s.accept r).req = requestOnPort s.params r := rfl
@[simp] theorem accept_ob (s : State) (r : Request) : (s.accept r).ob = s.ob := rfl
@[simp] theorem accept_pending (s : State) (r : Request) : (s.accept r).pending = none := rfl
@[simp] theorem accept_abandoned (s : State) (r : Request) : (s.accept r).abandoned = s.abandoned := rfl
@[simp] theorem accept_env (s : State) (r : Request) : (s.accept r).env = s.env := rfl

@[simp] theorem readInput_params (s : State) : (s.readInput).params = s.params := rfl
@[simp] theorem readInput_rom (s : State) : (s.readInput).rom = s.rom := rfl
@[simp] theorem readInput_fault (s : State) : (s.readInput).fault = s.fault := rfl
@[simp] theorem readInput_phase (s : State) : (s.readInput).phase = s.phase := rfl
@[simp] theorem readInput_rsp (s : State) : (s.readInput).rsp = s.rsp := rfl
@[simp] theorem readInput_prog (s : State) : (s.readInput).prog = s.prog := rfl
@[simp] theorem readInput_req (s : State) : (s.readInput).req = s.req := rfl
@[simp] theorem readInput_ob (s : State) : (s.readInput).ob = memWrites s.ob s.input.callerWrites := rfl
@[simp] theorem readInput_pending (s : State) : (s.readInput).pending = s.input.req := rfl
@[simp] theorem readInput_abandoned (s : State) : (s.readInput).abandoned = abandonedAfter s s.input.src := rfl
@[simp] theorem readInput_env (s : State) : (s.readInput).env = s.env.tail := rfl

end Sys2Proof.Machine
end

