-- ==== Sys2Proof/Laws/Ops.lean ====
section
/-!
SUPPORT. For each shared operation, one lemma that says everything it can do; and what any meaning can do at all.
-/

namespace Sys2Proof.Machine

/-- `raise Status(s)` written out: a status other than a source failure records nothing but itself. -/
theorem raise_eq (s : State) (x : Raise) :
    s.raise x = { s with
      fault := s.fault || raiseFaults x
      phase := .resp
      rsp := { Response.zero with status := raiseStatus x, errCode := raiseCode x } } := rfl

/-- The encoder raises exactly when the capacity is below `need`, else it responds (R75, R76). -/
theorem encodeQuad_eq (s : State) (l : Layout) (d : Bool) (short : Raise) :
    s.encodeQuad l d short =
      if s.req.outCap < (encQuad l d s.req.val).need then s.raise short
      else s.respond (encResponse l (encQuad l d s.req.val)) := rfl

/-- The control byte of a buffer decode, where it stands (R79). -/
theorem bufferCtrl_of_is {l : Layout} {r : Request} {c : Byte} (h : CtrlByteIs l r c) : bufferCtrl l r = some c := by
  cases l with
  | split => simp only [CtrlByteIs] at h; simp [bufferCtrl, h]
  | inline =>
    obtain ⟨h1, h2⟩ := h
    have : ¬ r.inLen < 1 := by omega
    simp [bufferCtrl, this, h2, laneRead]

/-- A buffer decode that finds its control byte does so where R79 says. -/
theorem ctrlByteIs_of_bufferCtrl {l : Layout} {r : Request} {c : Byte} (h : bufferCtrl l r = some c) :
    CtrlByteIs l r c := by
  cases l with
  | split => simp [bufferCtrl] at h; exact h.symm
  | inline =>
    simp only [bufferCtrl] at h
    split at h
    · cases h
    · simp [laneRead] at h
      exact ⟨by omega, h.symm⟩

/-- A buffer decode that finds no control byte is inline with an empty buffer (R79). -/
theorem bufferCtrl_none {l : Layout} {r : Request} : bufferCtrl l r = none ↔ l = .inline ∧ r.inLen = 0 := by
  cases l <;> simp [bufferCtrl]

/-- A buffer decode with the ROM intact: it raises when the buffer is below `need`, else it responds (R84, R85). -/
theorem decodeBuffer_of_ctrl {s : State} (hrom : s.RomIntact) {l : Layout} {c : Byte} (d : Bool) (short : Raise)
    (hc : CtrlByteIs l s.req c) :
    s.decodeBuffer l d short =
      if s.req.inLen < quadNeed l c then .next (s.raise short)
      else .next (s.respond (decResponse (returnedQuad d (decRaw l s.req.bufIn (ctrlLens c))) (quadNeed l c))) := by
  have hb := (quadNeed_bounds l c).2
  have hr : s.rom = romContents := hrom
  simp only [State.decodeBuffer, bufferCtrl_of_is hc, hr, romLens_contents, romNeed_contents, LenTooSmall,
    quadNeed_eq, if_neg (Nat.not_lt.mpr hb)]

/-- A buffer decode without a control byte raises (R84, R85). -/
theorem decodeBuffer_of_none {s : State} {l : Layout} (d : Bool) (short : Raise) (hl : l = .inline)
    (hn : s.req.inLen = 0) : s.decodeBuffer l d short = .next (s.raise short) := by
  simp [State.decodeBuffer, bufferCtrl_none.mpr ⟨hl, hn⟩]

/-- With the ROM intact a buffer decode never stops the machine: it raises, or responds OK. -/
theorem decodeBuffer_cases {s : State} (hrom : s.RomIntact) (l : Layout) (d : Bool) (short : Raise) :
    s.decodeBuffer l d short = .next (s.raise short) ∨
    ∃ c, CtrlByteIs l s.req c ∧ quadNeed l c ≤ s.req.inLen ∧ s.decodeBuffer l d short =
      .next (s.respond (decResponse (returnedQuad d (decRaw l s.req.bufIn (ctrlLens c))) (quadNeed l c))) := by
  cases hb : bufferCtrl l s.req with
  | none =>
    obtain ⟨hl, hn⟩ := bufferCtrl_none.mp hb
    exact .inl (decodeBuffer_of_none d short hl hn)
  | some c =>
    have hc := ctrlByteIs_of_bufferCtrl hb
    rw [decodeBuffer_of_ctrl hrom d short hc]
    split
    · exact .inl rfl
    · exact .inr ⟨c, hc, by omega, rfl⟩

/-- Whatever ROM the state holds, a buffer decode that answers a next state has raised, or responded OK. -/
theorem decodeBuffer_next {s t : State} {l : Layout} {d : Bool} {short : Raise}
    (h : s.decodeBuffer l d short = .next t) :
    t = s.raise short ∨ ∃ c, bufferCtrl l s.req = some c ∧
      t = s.respond (decResponse (returnedQuad d (decRaw l s.req.bufIn (romLens s.rom c))) (romNeed s.rom l c)) := by
  simp only [State.decodeBuffer] at h
  split at h
  · cases h; exact .inl rfl
  · rename_i c hc
    split at h
    · cases h; exact .inl rfl
    · split at h
      · cases h
      · cases h; exact .inr ⟨c, hc, rfl⟩

/-- A stream decode goes on waiting with the progress given, or responds OK and empties `prog` (R26, R89). -/
theorem continueStream_cases (s : State) (p : Prog) :
    s.continueStream p = { s with prog := some p } ∨
    ∃ v n, s.continueStream p = { s with prog := none, phase := .resp, rsp := decResponse v n } := by
  simp only [State.continueStream]
  split
  · exact .inl rfl
  · split
    · exact .inl rfl
    · exact .inr ⟨_, _, rfl⟩

/-- A stream decode waits while the control byte is not known. -/
theorem continueStream_unknown (s : State) (p : Prog) (h : p.ctrl = none) :
    s.continueStream p = { s with prog := some p } := by
  simp [State.continueStream, h]

/-- With the ROM intact, a stream decode waits exactly while fewer answers than `need` have been taken. -/
theorem continueStream_known {s : State} (hrom : s.RomIntact) (p : Prog) {c : Byte} (h : p.ctrl = some c) :
    s.continueStream p =
      if p.k < quadNeed p.layout c then { s with prog := some p }
      else ({ s with prog := none }).respond (decResponse (returnedQuad p.diff p.acc) (quadNeed p.layout c)) := by
  have hr : s.rom = romContents := hrom
  simp only [State.continueStream, h, hr, romLens_contents, romNeed_contents, quadNeed_eq]

/-- What any meaning can do: it responds (an OK or a raised outcome), or it opens a stream decode. FAULT is set by a FATAL
response alone, and nothing else changes. -/
inductive ExecCase (s t : State) : Prop where
  | responds (r : Response) (p : Option Prog) (hr : r.status = .ok ∨ r = bareResponse r.status)
      (hp : p = s.prog ∨ p = none)
      (ht : t = { s with fault := s.fault || (r.status == .fatal), phase := .resp, rsp := r, prog := p })
  | opens (p : Prog) (ht : t = { s with prog := some p })

/-- Every meaning that answers a next state does one of the two. -/
theorem exec_cases {i : Instr} {s t : State} (h : exec i s = .next t) : ExecCase s t := by
  have raised : ∀ x : Raise, (∀ e, x ≠ .srcError e) → ExecCase s (s.raise x) := by
    intro x hx
    refine .responds (s.raise x).rsp s.prog (.inr ?_) (.inl rfl) ?_
    · cases x <;> first | rfl | exact absurd rfl (hx _)
    · cases x <;> rfl
  have responded : ∀ r : Response, r.status = .ok → ExecCase s (s.respond r) := by
    intro r hr
    refine .responds r s.prog (.inl hr) (.inl rfl) ?_
    have hf : (r.status == Status.fatal) = false := by rw [hr]; rfl
    simp [State.respond, hf]
  cases i with
  | lutRd => cases h; exact responded _ rfl
  | encU l d =>
    cases h
    rw [encodeQuad_eq]
    split
    · exact raised _ (by simp)
    · exact responded _ rfl
  | encC l d =>
    cases h
    rw [encodeQuad_eq]
    split
    · exact raised _ (by simp)
    · exact responded _ rfl
  | decU l d =>
    rcases decodeBuffer_next h with rfl | ⟨c, -, rfl⟩
    · exact raised _ (by simp)
    · exact responded _ rfl
  | decC l d =>
    rcases decodeBuffer_next h with rfl | ⟨c, -, rfl⟩
    · exact raised _ (by simp)
    · exact responded _ rfl
  | decS l d =>
    cases h
    rcases continueStream_cases s (progStart l d s.req) with h | ⟨v, n, h⟩
    · exact .opens _ h
    · refine .responds (decResponse v n) none (.inl rfl) (.inr rfl) ?_
      rw [h]
      simp [decResponse]

/-- The frame of every meaning: the parameters, the ROM, the accepted request, the caller's buffer, and the channels'
bookkeeping are as before. -/
theorem exec_frame {i : Instr} {s t : State} (h : exec i s = .next t) :
    t.params = s.params ∧ t.rom = s.rom ∧ t.req = s.req ∧ t.ob = s.ob ∧ t.pending = s.pending ∧
    t.abandoned = s.abandoned ∧ t.env = s.env := by
  rcases exec_cases h with ⟨r, p, -, -, rfl⟩ | ⟨p, rfl⟩ <;> simp

/-- No meaning refuses. -/
theorem exec_ne_refused (i : Instr) (s : State) (q : Refusal) : exec i s ≠ .refused q := by
  have buffer : ∀ l d x, s.decodeBuffer l d x ≠ .refused q := by
    intro l d x h
    simp only [State.decodeBuffer] at h
    split at h
    · cases h
    · split at h
      · cases h
      · split at h <;> cases h
  cases i with
  | lutRd => simp [exec, execLutRd]
  | encU l d => simp [exec, execEncU]
  | encC l d => simp [exec, execEncC]
  | decU l d => exact buffer l d _
  | decC l d => exact buffer l d _
  | decS l d => simp [exec, execDecS]

/-- With the ROM intact every meaning answers a next state. -/
theorem exec_completes (i : Instr) {s : State} (hrom : s.RomIntact) : ∃ t, exec i s = .next t := by
  have buffer : ∀ l d x, ∃ t, s.decodeBuffer l d x = .next t := by
    intro l d x
    rcases decodeBuffer_cases hrom l d x with h | ⟨c, -, -, h⟩
    · exact ⟨_, h⟩
    · exact ⟨_, h⟩
  cases i with
  | lutRd => exact ⟨_, rfl⟩
  | encU l d => exact ⟨_, rfl⟩
  | encC l d => exact ⟨_, rfl⟩
  | decU l d => exact buffer l d _
  | decC l d => exact buffer l d _
  | decS l d => exact ⟨_, rfl⟩

/-- An answer: the operation goes on, or responds OK, or ends with the source's failure (R89, R90). -/
theorem takeAnswer_cases (s : State) (p : Prog) (a : Answer) :
    (∃ b, a = .byte b ∧ s.takeAnswer p a = s.continueStream (progByte s.rom p b)) ∨
    (∃ e, a = .fail e ∧ s.takeAnswer p a =
      { s with
        prog := none
        phase := .resp
        rsp := { Response.zero with status := .srcError, errCode := errOnPort s.params e } }) := by
  cases a with
  | byte b => exact .inl ⟨b, rfl, rfl⟩
  | fail e =>
    refine .inr ⟨e, rfl, ?_⟩
    simp [State.takeAnswer, State.raise, State.respond, raiseFaults, raiseStatus, raiseCode]

end Sys2Proof.Machine
end

