-- ==== Sys2Proof/Laws/PerInstr.lean ====
section
/-!
SUPPORT. Statements per instruction. `CommandShape`: the bits of a command's word that the six rows do not leave free
(R45, R47): `R` is 0, `D` and `C` are the command's, and the command is one byte.
-/

namespace Sys2Proof.Laws.CommandShape

/-- The command word of `i` has `R = 0` and the `D` and `C` bits of `i`, and there is no second word (R45, R46). -/
def Statement (i : Instr) : Prop :=
  cmdReserved (encodeCmd i) = false ∧ cmdDiff (encodeCmd i) = i.diff ∧ cmdChecked (encodeCmd i) = i.checked ∧
  (encode i).length = 1

theorem lutRd : Statement .lutRd := ⟨rfl, rfl, rfl, rfl⟩

theorem encU (l : Layout) (d : Bool) : Statement (.encU l d) := by cases l <;> cases d <;> exact ⟨rfl, rfl, rfl, rfl⟩

theorem encC (l : Layout) (d : Bool) : Statement (.encC l d) := by cases l <;> cases d <;> exact ⟨rfl, rfl, rfl, rfl⟩

theorem decU (l : Layout) (d : Bool) : Statement (.decU l d) := by cases l <;> cases d <;> exact ⟨rfl, rfl, rfl, rfl⟩

theorem decC (l : Layout) (d : Bool) : Statement (.decC l d) := by cases l <;> cases d <;> exact ⟨rfl, rfl, rfl, rfl⟩

theorem decS (l : Layout) (d : Bool) : Statement (.decS l d) := by cases l <;> cases d <;> exact ⟨rfl, rfl, rfl, rfl⟩

end Sys2Proof.Laws.CommandShape
end

