-- ==== Sys2Proof/Laws/Step.lean ====
section
/-!
SUPPORT. What a step does in each case, and everything a step that answers a next state can have done.
-/

namespace Sys2Proof.Machine

/-- With inputs left, the input of a step is the first of them. -/
theorem input_cons {s : State} {x : Input} {rest : List Input} (h : s.env = x :: rest) : s.input = x := by
  simp [State.input, h]

/-- A step under reset. -/
theorem step_reset {s : State} (h : s.input.rst = true) : step s = .next (s.resetStep s.input) := by
  simp [step, State.transact, h]

/-- A step in which the channels break their protocol. -/
theorem step_protocol {s : State} (h : s.input.rst = false) {q : Refusal} (hq : s.protocolError = some q) :
    step s = .refused q := by
  simp [step, State.transact, h, hq]

/-- A step in which they keep it: the work of the phase. -/
theorem step_phase {s : State} (h : s.input.rst = false) (hp : s.protocolError = none) :
    step s = s.readInput.phaseStep s.input s.env.isEmpty := by
  simp [step, State.transact, h, hp]

/-- A step in IDLE. -/
theorem step_idle {s : State} (h : s.input.rst = false) (hp : s.protocolError = none) (hi : s.phase = .idle) :
    step s = s.readInput.idleStep s.input := by
  rw [step_phase h hp, State.phaseStep, readInput_phase, hi]

/-- A step in BUSY. -/
theorem step_busy {s : State} (h : s.input.rst = false) (hp : s.protocolError = none) (hi : s.phase = .busy) :
    step s = s.readInput.busyStep s.input := by
  rw [step_phase h hp, State.phaseStep, readInput_phase, hi]

/-- A step in RESP. -/
theorem step_resp {s : State} (h : s.input.rst = false) (hp : s.protocolError = none) (hi : s.phase = .resp) :
    step s = s.readInput.respStep s.input := by
  rw [step_phase h hp, State.phaseStep, readInput_phase, hi]

/-- A step in HALT. -/
theorem step_halt {s : State} (h : s.input.rst = false) (hp : s.protocolError = none) (hi : s.phase = .halt) :
    step s = s.readInput.haltStep s.env.isEmpty := by
  rw [step_phase h hp, State.phaseStep, readInput_phase, hi]

/-- The accepting step runs the command of the accepted request. -/
theorem step_accepts {s : State} {r : Request} (h : s.Accepts r) : step s = (s.readInput.accept r).runCommand := by
  obtain ⟨hi, hf, hr, hp, hq⟩ := h
  rw [step_idle hr hp hi]
  simp [State.idleStep, hq, State.reqReady, hi, hf]

/-- The step that takes the held response. -/
theorem step_takes {s : State} (h : s.Takes) : step s = .next s.readInput.takeResponse := by
  obtain ⟨hi, hr, hp, hq⟩ := h
  rw [step_resp hr hp hi]
  simp [State.respStep, hq]

/-- What the command of an accepted request can do: its meaning, or ILLEGAL. -/
theorem runCommand_cases {s t : State} (h : s.runCommand = .next t) : ExecCase s t := by
  simp only [State.runCommand] at h
  split at h
  · exact exec_cases h
  · cases h
    refine .responds (bareResponse .illegal) s.prog (.inr rfl) (.inl rfl) ?_
    simp [State.raise, State.respond, raiseFaults, raiseStatus, raiseCode, bareResponse, Response.zero]

/-- The command of an accepted request is never refused. -/
theorem runCommand_ne_refused (s : State) (q : Refusal) : s.runCommand ≠ .refused q := by
  intro h
  simp only [State.runCommand] at h
  split at h
  · exact exec_ne_refused _ _ _ h
  · cases h

/-- With the ROM intact the command of an accepted request completes. -/
theorem runCommand_completes {s : State} (hrom : s.RomIntact) : ∃ t, s.runCommand = .next t := by
  simp only [State.runCommand]
  split
  · exact exec_completes _ hrom
  · exact ⟨_, rfl⟩

/-- With the ROM intact and the channels' protocol kept, a step outside HALT answers a next state. -/
theorem step_completes {s : State} (hrom : s.RomIntact) (h : s.input.rst = false) (hp : s.protocolError = none)
    (hi : s.phase ≠ .halt) : ∃ t, step s = .next t := by
  cases hph : s.phase with
  | idle =>
    rw [step_idle h hp hph, State.idleStep]
    split
    · exact ⟨_, rfl⟩
    · split
      · exact runCommand_completes hrom
      · exact ⟨_, rfl⟩
  | busy =>
    rw [step_busy h hp hph, State.busyStep]
    split
    · exact runCommand_completes hrom
    · split <;> exact ⟨_, rfl⟩
  | resp =>
    rw [step_resp h hp hph, State.respStep]
    split <;> exact ⟨_, rfl⟩
  | halt => exact absurd hph hi

/-- Everything a step that answers a next state can have done. -/
inductive StepCase (s t : State) : Prop where
  | reset (hr : s.input.rst = true) (ht : t = s.resetStep s.input)
  | waits (hr : s.input.rst = false) (hp : s.protocolError = none) (ht : t = s.readInput)
      (hw : (s.phase = .idle ∧ (s.input.req = none ∨ s.fault = true)) ∨
        (s.phase = .busy ∧ s.prog.isSome = true ∧ ∀ a, s.input.src ≠ .answer a) ∨
        (s.phase = .resp ∧ s.input.rspReady = false) ∨ s.phase = .halt)
  | accepts (r : Request) (ha : s.Accepts r) (ht : (s.readInput.accept r).runCommand = .next t)
  | runs (hr : s.input.rst = false) (hp : s.protocolError = none) (hi : s.phase = .busy) (hn : s.prog = none)
      (ht : s.readInput.runCommand = .next t)
  | answers (hr : s.input.rst = false) (hp : s.protocolError = none) (hi : s.phase = .busy) (p : Prog) (a : Answer)
      (hn : s.prog = some p) (hs : s.input.src = .answer a) (ht : t = s.readInput.takeAnswer p a)
  | takes (hk : s.Takes) (ht : t = s.readInput.takeResponse)

/-- A step that answers a next state is one of these cases. -/
theorem step_cases {s t : State} (h : step s = .next t) : StepCase s t := by
  cases hr : s.input.rst with
  | true =>
    rw [step_reset hr] at h
    cases h
    exact .reset hr rfl
  | false =>
    cases hp : s.protocolError with
    | some q => rw [step_protocol hr hp] at h; cases h
    | none =>
      cases hi : s.phase with
      | idle =>
        rw [step_idle hr hp hi, State.idleStep] at h
        split at h
        · cases h; exact .waits hr hp rfl (.inl ⟨hi, .inl ‹_›⟩)
        · rename_i r hq
          split at h
          · rename_i hready
            have hf : s.fault = false := by simpa [State.reqReady, hi] using hready
            exact .accepts r ⟨hi, hf, hr, hp, hq⟩ h
          · rename_i hready
            have hf : s.fault = true := by simpa [State.reqReady, hi] using hready
            cases h; exact .waits hr hp rfl (.inl ⟨hi, .inr hf⟩)
      | busy =>
        rw [step_busy hr hp hi, State.busyStep, readInput_prog] at h
        split at h
        · exact .runs hr hp hi ‹_› h
        · rename_i p hn
          split at h
          · rename_i a hs
            cases h; exact .answers hr hp hi p a hn hs rfl
          · rename_i hs
            cases h; exact .waits hr hp rfl (.inr (.inl ⟨hi, by simp [hn], hs⟩))
      | resp =>
        rw [step_resp hr hp hi, State.respStep] at h
        split at h
        · rename_i hk
          cases h; exact .takes ⟨hi, hr, hp, hk⟩ rfl
        · rename_i hk
          cases h; exact .waits hr hp rfl (.inr (.inr (.inl ⟨hi, by simpa using hk⟩)))
      | halt =>
        rw [step_halt hr hp hi, State.haltStep] at h
        split at h
        · cases h
        · cases h; exact .waits hr hp rfl (.inr (.inr (.inr hi)))

end Sys2Proof.Machine
end

