-- ==== Sys2Proof/Laws/Runs.lean ====
section
/-!
SUPPORT. Runs of several steps (Host.Core.run), the place of a data byte in its quad, and the responses a rule can give.
-/

namespace Sys2Proof.Machine

/-- A run that starts with a step. -/
theorem run_cons {s t : State} (h : step s = .next t) (k : Nat) :
    Host.Core.run Sys2Proof.core (k + 1) s = Host.Core.run Sys2Proof.core k t := by
  simp only [Host.Core.run, Sys2Proof.core, h]

/-- A run that ends with a step. -/
theorem run_snoc {t u : State} (hu : step t = .next u) : ∀ {k : Nat} {s : State},
    Host.Core.run Sys2Proof.core k s = .next t → Host.Core.run Sys2Proof.core (k + 1) s = .next u
  | 0, s, h => by cases h; rw [run_cons hu]; rfl
  | k + 1, s, h => by
    cases hs : step s with
    | next v => rw [run_cons hs] at h ⊢; exact run_snoc hu h
    | fault q => simp [Host.Core.run, Sys2Proof.core, hs] at h
    | refused q => simp [Host.Core.run, Sys2Proof.core, hs] at h

/-- A data byte belongs to the value in whose section it stands (R81). -/
theorem valueIndex_eq_iff (n : Four Nat) (j : Nat) (h : j < n.total) (i : Fin 4) :
    valueIndex n j = i ↔ n.before i ≤ j ∧ j < n.before i + n.get i := by
  obtain ⟨a, b, c, d⟩ := n
  simp only [Four.total] at h
  rw [show valueIndex ⟨a, b, c, d⟩ j =
    (if j < a then 0 else if j < a + b then 1 else if j < a + b + c then 2 else 3) from rfl]
  by_cases h1 : j < a
  · rw [if_pos h1]
    match i with
    | 0 | 1 | 2 | 3 => simp [Four.before, Four.get]; try omega
  · rw [if_neg h1]
    by_cases h2 : j < a + b
    · rw [if_pos h2]
      match i with
      | 0 | 1 | 2 | 3 => simp [Four.before, Four.get]; try omega
    · rw [if_neg h2]
      by_cases h3 : j < a + b + c
      · rw [if_pos h3]
        match i with
        | 0 | 1 | 2 | 3 => simp [Four.before, Four.get]; try omega
      · rw [if_neg h3]
        match i with
        | 0 | 1 | 2 | 3 => simp [Four.before, Four.get]; try omega

/-- A response with nothing but a status, and with a source failure its code, is one a rule can give (R104 to R107). -/
theorem responseOk_bare (st : Status) (e : Nat) (he : st ≠ .srcError → e = 0) :
    ResponseOk { Response.zero with status := st, errCode := e } := by
  refine ⟨fun _ => rfl, he, .inl rfl, ?_, ?_⟩
  · intro j h; simp [Response.zero, OutLanes.clear] at h
  · intro j _; simp [Response.zero, OutLanes.clear]

/-- The response of a decoder is one a rule can give (R84, R85, R89). -/
theorem responseOk_dec (v : Four Word) (n : Nat) (h : 4 ≤ n ∧ n ≤ 17) : ResponseOk (decResponse v n) := by
  refine ⟨fun h => absurd rfl h, fun _ => rfl, .inr ?_, ?_, ?_⟩
  · simp [decResponse, nbytesField]; omega
  · intro j h; simp [decResponse, Response.zero, OutLanes.clear] at h
  · intro j _; simp [decResponse, Response.zero, OutLanes.clear]

end Sys2Proof.Machine
end

