-- ==== Sys2Proof/Laws/Units.lean ====
section
/-!
SUPPORT. The unit of a quad as a list of bytes (R52, R57): its length, the byte at each place, the bytes of each value,
and that the lanes an encoder writes hold it (R71).
-/

namespace Sys2Proof.Machine

/-- A place of five consecutive sections of lengths `o`, `a`, `b`, `c` and `d`, or after them all. -/
theorem section_cases (o a b c d j : Nat) :
    j < o ∨ (o ≤ j ∧ j < o + a) ∨ (o + a ≤ j ∧ j < o + a + b) ∨ (o + a + b ≤ j ∧ j < o + a + b + c) ∨
    (o + a + b + c ≤ j ∧ j < o + a + b + c + d) ∨ o + a + b + c + d ≤ j := by omega

/-- What stands at place `j` of a unit: `e` for `o` places, then the bytes of the four values in lengths `a` to `d`. -/
def unitByte (e : Byte) (w : Four Word) (o a b c d j : Nat) : Byte :=
  if j < o then e
  else if j < o + a then beByte w.x0 a (j - o)
  else if j < o + a + b then beByte w.x1 b (j - (o + a))
  else if j < o + a + b + c then beByte w.x2 c (j - (o + a + b))
  else if j < o + a + b + c + d then beByte w.x3 d (j - (o + a + b + c))
  else 0#8

/-- Byte `j` of the data section (R52). -/
theorem dataBytes_getD (w : Four Word) (e : Byte) (a b c d j : Nat) :
    (dataBytes w ⟨a, b, c, d⟩).getD j 0#8 = unitByte e w 0 a b c d j := by
  have app : ∀ x y : List Byte, (x ++ y).getD j 0#8 = if j < x.length then x.getD j 0#8 else y.getD (j - x.length) 0#8 := by
    intro x y
    split
    · rw [List.getD_append _ _ _ _ (by assumption)]
    · rw [List.getD_append_right _ _ _ _ (by omega)]
  simp only [dataBytes, app, List.length_append, beBytes_length, beBytes_getD, unitByte, Nat.zero_add]
  rcases section_cases 0 a b c d j with h | h | h | h | h | h
  · exact absurd h (Nat.not_lt_zero j)
  all_goals simp (disch := omega) only [if_pos, if_neg, Nat.sub_zero]

/-- Byte `j` of the unit (R57). -/
theorem unitBytes_getD (l : Layout) (e : Byte) (w : Four Word) (a b c d j : Nat) :
    (unitBytes l e w ⟨a, b, c, d⟩).getD j 0#8 = unitByte e w l.size a b c d j := by
  cases l with
  | split => exact dataBytes_getD w e a b c d j
  | inline =>
    cases j with
    | zero => simp [unitBytes, unitByte, Layout.size]
    | succ j =>
      show (dataBytes w ⟨a, b, c, d⟩).getD j 0#8 = unitByte e w 1 a b c d (j + 1)
      simp only [dataBytes_getD w e, unitByte]
      rcases section_cases 0 a b c d j with h | h | h | h | h | h
      · exact absurd h (Nat.not_lt_zero j)
      all_goals simp (disch := omega) only [if_pos, if_neg]
      all_goals first | rfl | (congr 1; omega)

/-- A unit has `L` bytes and those of its four values (R57). -/
theorem unitBytes_length (l : Layout) (c : Byte) (w : Four Word) (n : Four Nat) :
    (unitBytes l c w n).length = l.size + n.total := by
  cases l <;> simp [unitBytes, dataBytes, Layout.size, Four.total] <;> omega

/-- Four values placed one after another behind `o` lanes that hold `e`. -/
theorem placeValues_lane (out : OutLanes) (e : Byte) (w : Four Word) (o a b c d j : Nat) (hn : o + (a + b + c + d) ≤ laneCount)
    (hd : ∀ j, laneRead out.data j = if j < o then e else 0#8) (hw : ∀ j, out.we[j]?.getD false = decide (j < o)) :
    let q := placeValue (o + (a + b + c)) w.x3 d (placeValue (o + (a + b)) w.x2 c
      (placeValue (o + a) w.x1 b (placeValue (o + 0) w.x0 a out)))
    laneRead q.data j = unitByte e w o a b c d j ∧ q.we[j]?.getD false = decide (j < o + (a + b + c + d)) := by
  simp only [laneRead_placeValue, enable_placeValue, hd, hw, unitByte, laneCount, Nat.add_zero] at hn ⊢
  rcases section_cases o a b c d j with h | h | h | h | h | h <;> refine ⟨?_, ?_⟩ <;>
    simp (disch := omega) only [if_pos, if_neg] <;> first | rfl | (symm; simp; omega) | (congr 1; omega)

/-- Every lane of an encoder's output, for lengths that fit the lanes: the byte of the unit, enabled below its length
(R71). -/
theorem placeQuad_lane (l : Layout) (e : Byte) (w : Four Word) (n : Four Nat) (hn : l.size + n.total ≤ laneCount) (j : Nat) :
    laneRead (placeQuad l e w n).data j = (unitBytes l e w n).getD j 0#8 ∧
    (placeQuad l e w n).we[j]?.getD false = decide (j < l.size + n.total) := by
  obtain ⟨a, b, c, d⟩ := n
  rw [unitBytes_getD]
  cases l with
  | split =>
    exact placeValues_lane OutLanes.clear e w 0 a b c d j hn (fun j => by rw [(clear_lane j).1, if_neg (by omega)])
      (fun j => by rw [(clear_lane j).2]; simp)
  | inline =>
    refine placeValues_lane (OutLanes.clear.write 0 e) e w 1 a b c d j hn (fun j => ?_) (fun j => ?_)
    · simp only [laneRead_write, (clear_lane j).1]
      cases j <;> simp
    · simp only [enable_write, (clear_lane j).2]
      cases j <;> simp

/-- A value read back from the bytes it was written in (R31, R52). -/
theorem beValue_beBytes (x : Word) (n : Nat) (h : x.toNat < 2 ^ (8 * n)) : beValue (beBytes x n) = x.toNat := by
  have key : ∀ m ≤ n, beValue ((List.range m).map fun k => BitVec.ofNat 8 (x.toNat / 2 ^ (8 * (n - 1 - k)))) =
      x.toNat / 2 ^ (8 * (n - m)) := by
    intro m hm
    induction m with
    | zero => simp [beValue]; exact (Nat.div_eq_of_lt h).symm
    | succ m ih =>
      rw [List.range_succ, List.map_append, List.map_singleton, beValue_append, ih (by omega)]
      have e : n - m = (n - (m + 1)) + 1 := by omega
      rw [e, show n - 1 - m = n - (m + 1) by omega, Nat.mul_add, Nat.pow_add, ← Nat.div_div_eq_div_mul]
      simp only [BitVec.toNat_ofNat]
      omega
  simpa [beBytes] using key n le_rfl

/-- The bytes of value `i` in the data section (R52). -/
theorem dataBytes_slice (w : Four Word) (n : Four Nat) (i : Fin 4) :
    ((dataBytes w n).drop (n.before i)).take (n.get i) = beBytes (w.get i) (n.get i) := by
  have dropLeft : ∀ (a b : List Byte) k, k = a.length → (a ++ b).drop k = b := by rintro a b k rfl; simp
  have takeLeft : ∀ (a b : List Byte) k, k = a.length → (a ++ b).take k = a := by rintro a b k rfl; simp
  match i with
  | 0 => simp only [dataBytes, Four.before, Four.get, List.append_assoc, List.drop_zero]; exact takeLeft _ _ _ (by simp)
  | 1 =>
    simp only [dataBytes, Four.before, Four.get, List.append_assoc]
    rw [dropLeft _ _ _ (by simp), takeLeft _ _ _ (by simp)]
  | 2 =>
    simp only [dataBytes, Four.before, Four.get]
    rw [List.append_assoc (_ ++ _), dropLeft _ _ _ (by simp), takeLeft _ _ _ (by simp)]
  | 3 =>
    simp only [dataBytes, Four.before, Four.get]
    rw [dropLeft _ _ _ (by simp; omega), List.take_of_length_le (by simp)]

/-- The bytes of value `i` in the unit (R57). -/
theorem unitBytes_slice (l : Layout) (c : Byte) (w : Four Word) (n : Four Nat) (i : Fin 4) :
    ((unitBytes l c w n).drop (l.size + n.before i)).take (n.get i) = beBytes (w.get i) (n.get i) := by
  rw [← dataBytes_slice]
  cases l <;> simp [unitBytes, Layout.size, Nat.add_comm 1]

end Sys2Proof.Machine
end

