-- ==== Sys2Proof/Tests/Slice0.lean ====
section
/-!
SUPPORT. Tests. Expected results are the spec's own: the vectors of 95_test_vectors.md by their names there (L<n>, E<n>,
B<n>, S<n>), the encodings of R45 and R47, and hand calculation. Then, for each obligation with hypotheses, a
concrete state and operands that meet them together (`test_witness_<obligation>`).
-/

namespace Sys2Proof.Tests

open Sys2Proof.Machine

set_option maxRecDepth 20000

/-! ### Helpers -/

/-- An input in which the caller presents the request of a line. -/
def present (x : Line) : Input := { Input.quiet with req := some (lineRequest x) }

/-- The reset state with these inputs to come. -/
def withInputs (env : List Input) : State := { State.reset with env := env }

/-- The core in IDLE, the next input the request of a line. -/
def idleOn (x : Line) : State := withInputs [present x]

/-- The core in BUSY, the request of a line accepted and not run yet. -/
def busyOn (x : Line) : State := { State.reset with phase := .busy, req := lineRequest x }

/-- The core in RESP, holding a response. -/
def holding (r : Response) : State := { State.reset with phase := .resp, rsp := r }

/-- A core built without delta_coder_wrapper. -/
def noDelta (s : State) : State := { s with params := { s.params with hasDelta := false } }

/-- An input in which the caller takes the response. -/
def take : Input := { Input.quiet with rspReady := true }

/-- What a test asks of an outcome: a next state with the property. -/
def answers (o : Host.Outcome State Fault Refusal) (p : State → Bool) : Bool :=
  match o with
  | .next t => p t
  | .fault _ => false
  | .refused _ => false

/-! ### Well-formedness: the one check, and a command it refuses (R47, R99) -/

theorem test_wf_accepts : (Instr.encC .split true).wf Params.default = true := by decide

theorem test_wf_refuses_diff : (Instr.encC .split true).wf { Params.default with hasDelta := false } = false := by decide

theorem test_wf_keeps_plain : (Instr.encC .split false).wf { Params.default with hasDelta := false } = true := by decide

/-! ### Decoding: words written out bit by bit, U R L D C S (R45), one for each constructor and some with modifiers -/

theorem test_decode_lutRd : decode Params.default 0b00_0_0_0_0_00#8 = .instr .lutRd := by decide

theorem test_decode_encU : decode Params.default 0b01_0_1_0_0_00#8 = .instr (.encU .inline false) := by decide

theorem test_decode_encC : decode Params.default 0b01_0_0_1_1_00#8 = .instr (.encC .split true) := by decide

theorem test_decode_decU : decode Params.default 0b10_0_0_0_0_00#8 = .instr (.decU .split false) := by decide

theorem test_decode_decC : decode Params.default 0b10_0_1_1_1_00#8 = .instr (.decC .inline true) := by decide

theorem test_decode_decS : decode Params.default 0b10_0_1_0_1_01#8 = .instr (.decS .inline false) := by decide

/-- Reserved words, each under its case of R58. -/
theorem test_decode_reserved :
    decode Params.default 0b11_0_0_0_0_00#8 = .reserved .unit ∧
    decode Params.default 0b01_1_0_0_0_00#8 = .reserved .reservedBit ∧
    decode Params.default 0b00_0_0_0_0_01#8 = .reserved .lutOtherBits ∧
    decode Params.default 0b01_0_0_0_0_01#8 = .reserved .encoderSource ∧
    decode Params.default 0b10_0_0_0_0_11#8 = .reserved .decoderSource ∧
    decode Params.default 0b10_0_0_0_0_01#8 = .reserved .uncheckedStream ∧
    decode { Params.default with hasDelta := false } 0b10_0_0_1_1_01#8 = .reserved .noDelta := by decide

theorem test_decodeTableWord : decodeTableWord 8 0x9D = some (.decS .inline true) ∧ decodeTableWord 8 0x20 = none := by
  decide

/-- A placed command word runs as the first command: LUT.RD of control byte 0 (L1). -/
theorem test_withFetchWord :
    answers (step (State.reset.withFetchWord 8 0x00)) (fun t => t.phase == .resp && t.rsp.sumOut == 4#8) = true := by
  decide

/-! ### Commands: the spec's vectors -/

/-- L5. -/
theorem test_lutRd_e4 :
    answers (step (idleOn (.lutRd 0xE4#8)))
      (fun t => t.rsp.lenOut == ⟨4#8, 3#8, 2#8, 1#8⟩ && t.rsp.sumOut == 10#8) = true := by decide

/-- L4, as a ROM word of 40 bits. -/
theorem test_rom_43 : romRead romContents 0x43#8 = 0x0201010408#40 := by decide

/-- E2. -/
theorem test_encU_bytes :
    answers (step (idleOn (.enc false .split false ⟨255#32, 256#32, 65535#32, 65536#32⟩ 16)))
      (fun t => t.rsp.ctrlOut == 0x16#8 && t.rsp.nbytes == 8#5 &&
        t.rsp.out.data == lanesOf [0xFF#8, 0x01#8, 0x00#8, 0xFF#8, 0xFF#8, 0x01#8, 0x00#8, 0x00#8]) = true := by decide

/-- E5: FATAL, no lane written. -/
theorem test_encU_fatal :
    answers (step (idleOn (.enc false .inline false (Four.fill 0xFFFFFFFF#32) 16)))
      (fun t => t.fault && t.rsp.status == .fatal && t.rsp.out == OutLanes.clear) = true := by decide

/-- E16: pairs that decrease wrap. -/
theorem test_encC_wraps :
    answers (step (idleOn (.enc true .split true ⟨5#32, 3#32, 3#32, 0#32⟩ 16)))
      (fun t => t.rsp.ctrlOut == 0x33#8 && t.rsp.out.data ==
        lanesOf [0x05#8, 0xFF#8, 0xFF#8, 0xFF#8, 0xFE#8, 0x00#8, 0xFF#8, 0xFF#8, 0xFF#8, 0xFD#8]) = true := by decide

/-- E8: INSUFFICIENT at one byte less than `need`. -/
theorem test_encC_insufficient :
    answers (step (idleOn (.enc true .split false ⟨1024#32, 12#32, 10#32, 1073741824#32⟩ 7)))
      (fun t => !t.fault && t.rsp.status == .insufficient && t.rsp.nbytes == 0#5) = true := by decide

/-- B13. -/
theorem test_decU_quad :
    answers (step (idleOn (.decSplit false false 0x43#8 8 [0x04#8, 0x00#8, 0x0C#8, 0x0A#8, 0x40#8, 0x00#8, 0x00#8, 0x00#8])))
      (fun t => t.rsp.valOut == ⟨1024#32, 12#32, 10#32, 1073741824#32⟩ && t.rsp.nbytes == 8#5) = true := by decide

/-- B15: FATAL without a control byte. -/
theorem test_decU_no_control :
    answers (step (idleOn (.decInline false false 0 []))) (fun t => t.fault && t.rsp.status == .fatal) = true := by decide

/-- B7: the control byte at lane 0. -/
theorem test_decC_inline :
    answers (step (idleOn (.decInline true false 6 [0x01#8, 0x01#8, 0x02#8, 0x03#8, 0x04#8, 0x00#8])))
      (fun t => t.rsp.valOut == ⟨1#32, 2#32, 3#32, 1024#32⟩ && t.rsp.nbytes == 6#5) = true := by decide

/-- B12: the prefix sum wraps. -/
theorem test_decC_wraps :
    answers (step (idleOn (.decSplit true true 0xFF#8 16 [0xFF#8, 0xFF#8, 0xFF#8, 0xFF#8, 0x00#8, 0x00#8, 0x00#8, 0x01#8,
        0x00#8, 0x00#8, 0x00#8, 0x01#8, 0x00#8, 0x00#8, 0x00#8, 0x01#8])))
      (fun t => t.rsp.valOut == ⟨4294967295#32, 0#32, 1#32, 2#32⟩) = true := by decide

/-- A DEC.S with control byte 0x00 that has taken 01 02 03. -/
def nearlyDone : State :=
  { busyOn (.streamSplit false 0x00#8) with
    prog := some { layout := .split, diff := false, k := 3, ctrl := some 0x00#8, acc := ⟨1#32, 2#32, 3#32, 0#32⟩ } }

/-- The fourth answer completes the quad (R89, by hand). -/
theorem test_decS_last_answer :
    answers (step { nearlyDone with env := [answerInput (.byte 0x04#8)] })
      (fun t => t.phase == .resp && t.rsp.valOut == ⟨1#32, 2#32, 3#32, 4#32⟩ && t.rsp.nbytes == 4#5 && !t.srcPull) =
        true := by decide

/-- A failure in its place ends the operation with its code (R90, by hand). -/
theorem test_decS_failure :
    answers (step { nearlyDone with env := [answerInput (.fail 2)] })
      (fun t => t.rsp.status == .srcError && t.rsp.errCode == 2 && t.rsp.valOut == Four.fill 0#32 && !t.fault) = true := by
  decide

/-- A reserved word answers ILLEGAL (R107). -/
theorem test_illegal :
    answers (step (withInputs [{ Input.quiet with req := some { Request.zero with cmd := 0xC0#8 } }]))
      (fun t => t.rsp == bareResponse .illegal && !t.fault) = true := by decide

/-- The output buffer takes the lanes below `nbytes` and keeps the rest (R28): the last of six lanes, and the next. -/
theorem test_buffer_update :
    memRead (memApply [(6, 0x77#8)] 6 (placeQuad .inline 0x01#8 ⟨1#32, 2#32, 3#32, 1024#32⟩ ⟨1, 1, 1, 2⟩)) 5 = some 0x00#8 ∧
    memRead (memApply [(6, 0x77#8)] 6 (placeQuad .inline 0x01#8 ⟨1#32, 2#32, 3#32, 1024#32⟩ ⟨1, 1, 1, 2⟩)) 6 = some 0x77#8 := by
  decide

/-- A write out of order stands in its place (the canonical form). -/
theorem test_memory_order : memWrites [] [(3, 1#8), (1, 2#8), (3, 4#8)] = [(1, 2#8), (3, 4#8)] := by decide

/-! ### Witnesses: for each obligation with hypotheses, a state and operands that meet all of them -/

/-- A request that ENC.C takes: 1, 2, 3, 1024 (S2). -/
def lineS2 (l : Layout) (cap : Nat) : Line := .enc true l false ⟨1#32, 2#32, 3#32, 1024#32⟩ cap

/-- The four bytes 01 02 03 04 as the data of a DEC.S with control byte 0x00. -/
def fourBytes : List Byte := [0x01#8, 0x02#8, 0x03#8, 0x04#8]

/-- The reset state accepts a presented line. -/
theorem test_accepts (x : Line) : (idleOn x).Accepts (lineRequest x) := ⟨rfl, rfl, rfl, rfl, rfl⟩

theorem test_witness_DecodeAndEncodeAgree :
    (Instr.decS .inline true).wf Params.default = true ∧
    decodeBytes Params.default [0x9D#8, 0xAA#8] = some (.decS .inline true, [0xAA#8]) := by decide

theorem test_witness_LegalCommandsAreTheTable :
    decode Params.default 0x4C#8 = .instr (.encC .split true) ∧ ((0x4C#8 : Byte), Instr.encC .split true) ∈ commandTable ∧
    Params.default.hasDelta = true := by decide

/-- DEC.S's row matches its word with L = 1, and a word of no row is reserved. -/
theorem test_witness_RowPatternsNeverOverlap :
    (∃ r ∈ rowPatterns, (0x95#8 : Byte) &&& r.1 = r.2.1) ∧ (0x95#8 : Byte).getLsbD 3 = false ∧
    (∀ r ∈ rowPatterns, (0x81#8 : Byte) &&& r.1 ≠ r.2.1) := by decide

theorem test_witness_MnemonicsNameOneWord : instrText .lutRd = instrText .lutRd := rfl

theorem test_witness_LineRequestDecodesToItsCommand :
    (lineInstr (.enc true .inline true (Four.fill 0#32) 17)).wf Params.default = true ∧
    (lineInstr (.streamInline false)).wf { Params.default with hasDelta := false } = true := by decide

theorem test_witness_StepRunsAcceptedCommand :
    (idleOn (lineS2 .split 16)).Accepts (lineRequest (lineS2 .split 16)) ∧
    decode (idleOn (lineS2 .split 16)).params (lineRequest (lineS2 .split 16)).cmd = .instr (.encC .split false) :=
  ⟨test_accepts _, by decide⟩

/-- The widest numbers that fit eight wires, and the first that do not. -/
theorem test_witness_AcceptedRequestIsSampled :
    (255 < 2 ^ State.reset.params.lenw ∧ ¬ 256 < 2 ^ State.reset.params.lenw) ∧
    (requestOnPort Params.default { Request.zero with inLen := 255, outCap := 256 }).inLen = 255 ∧
    (requestOnPort Params.default { Request.zero with inLen := 255, outCap := 256 }).outCap = 0 := by decide

theorem test_witness_ReservedCommandAnswersIllegal :
    (withInputs [{ Input.quiet with req := some { Request.zero with cmd := 0xC0#8 } }]).Accepts
      { Request.zero with cmd := 0xC0#8 } ∧ decode Params.default 0xC0#8 = .reserved .unit :=
  ⟨⟨rfl, rfl, rfl, rfl, rfl⟩, by decide⟩

/-- A request presented while a DEC.S waits goes on waiting; so does one presented while a response is taken. -/
theorem test_witness_OneTransactionAtATime :
    (State.reqReady { holding (bareResponse .illegal) with env := [{ present (.lutRd 0x01#8) with rspReady := true }] } = false ∧
      answers (step { holding (bareResponse .illegal) with env := [{ present (.lutRd 0x01#8) with rspReady := true }] })
        (fun t => t.phase == .idle && t.pending == some (lineRequest (.lutRd 0x01#8))) = true) ∧
    State.reqReady { nearlyDone with env := [present (.lutRd 0x01#8)] } = false ∧
    State.input { nearlyDone with env := [present (.lutRd 0x01#8)] } = present (.lutRd 0x01#8) ∧
    answers (step { nearlyDone with env := [present (.lutRd 0x01#8)] })
      (fun t => t.pending == some (lineRequest (.lutRd 0x01#8))) = true := by decide

theorem test_witness_LutReadReturnsEntry : (busyOn (.lutRd 0xE4#8)).RomIntact := rfl

theorem test_witness_RomTableTotality :
    ctrlField 0x43#8 1 = ctrlField 0x01#8 1 ∧ romSum romContents 0x00#8 = 4 ∧ romSum romContents 0xFF#8 = 16 := by decide

theorem test_witness_NoStepChangesRomOrParams : ∃ t, step (idleOn (.lutRd 0xE4#8)) = .next t := ⟨_, rfl⟩

theorem test_witness_BlenIsLeastByteCount :
    (0xFFFFFF#32).toNat < 2 ^ (8 * 3) ∧ blen 0xFFFFFF#32 = 3 ∧ blen 0x1000000#32 = 4 := by decide

/-- Lengths at both ends of their range. -/
theorem test_witness_PackedControlByteHoldsLengths :
    (∀ i, 1 ≤ (⟨1, 4, 1, 4⟩ : Four Nat).get i ∧ (⟨1, 4, 1, 4⟩ : Four Nat).get i ≤ 4) ∧ packCtrl ⟨1, 4, 1, 4⟩ = 0x33#8 := by
  decide

theorem test_witness_EncoderLanesHoldTheUnit :
    (encQuad .inline true ⟨5#32, 3#32, 3#32, 0#32⟩) = encQuad .inline true ⟨5#32, 3#32, 3#32, 0#32⟩ ∧
    (encQuad .inline true ⟨5#32, 3#32, 3#32, 0#32⟩).need = 11 := by decide

/-- The first and the last byte of a value of four bytes. -/
theorem test_witness_ValueByteStandsAtItsLane :
    0 < (encQuad .split true ⟨5#32, 3#32, 3#32, 0#32⟩).lens.get 3 ∧ 3 < (encQuad .split true ⟨5#32, 3#32, 3#32, 0#32⟩).lens.get 3 := by
  decide

theorem test_witness_EncoderAgreesWithTable :
    (encQuad .inline false ⟨1#32, 2#32, 3#32, 1024#32⟩).ctrl = 0x01#8 ∧
    (encQuad .inline false ⟨1#32, 2#32, 3#32, 1024#32⟩).need = 6 := by decide

/-- Capacity exactly `need`, and one less. -/
theorem test_witness_EncUncheckedResult :
    (encQuad .inline false (busyOn (lineS2 .inline 6)).req.val).need ≤ (busyOn (lineS2 .inline 6)).req.outCap ∧
    (busyOn (lineS2 .inline 5)).req.outCap < (encQuad .inline false (busyOn (lineS2 .inline 5)).req.val).need := by decide

/-- Capacity exactly `need`, and one less. -/
theorem test_witness_EncCheckedResult :
    (encQuad .split false (busyOn (lineS2 .split 5)).req.val).need ≤ (busyOn (lineS2 .split 5)).req.outCap ∧
    (busyOn (lineS2 .split 4)).req.outCap < (encQuad .split false (busyOn (lineS2 .split 4)).req.val).need := by decide

theorem test_witness_ControlByteDerivation :
    ∃ t, exec (.encC .split false) (busyOn (lineS2 .split 5)) = .next t ∧ t.rsp.status = .ok := ⟨_, rfl, by decide⟩

/-- Two quads that agree in value 1 and in value 0; and two that agree in the lengths before value 2 alone. -/
theorem test_witness_EncoderLaneIndependence :
    ((⟨7#32, 9#32, 1#32, 2#32⟩ : Four Word).get 1 = (⟨7#32, 9#32, 300#32, 0#32⟩ : Four Word).get 1 ∧
      (⟨7#32, 9#32, 1#32, 2#32⟩ : Four Word).get (1 - 1) = (⟨7#32, 9#32, 300#32, 0#32⟩ : Four Word).get (1 - 1)) ∧
    (∀ j : Fin 4, j < 2 → (encQuad .split false ⟨7#32, 9#32, 1#32, 2#32⟩).lens.get j =
      (encQuad .split false ⟨8#32, 6#32, 300#32, 0#32⟩).lens.get j) := by decide

/-- A drop of exactly 2^32 - 2^24 and one more; a rise; an equal pair. -/
theorem test_witness_DeltaOfUnorderedPairWraps :
    (2 : Fin 4) ≠ 0 ∧
    ((⟨0#32, 0xFF000000#32, 0#32, 0#32⟩ : Four Word).get 2).toNat < ((⟨0#32, 0xFF000000#32, 0#32, 0#32⟩ : Four Word).get (2 - 1)).toNat ∧
    blen ((deltaFwd ⟨0#32, 0xFF000000#32, 0#32, 0#32⟩).get 2) = 4 ∧
    blen ((deltaFwd ⟨0#32, 0xFF000001#32, 0#32, 0#32⟩).get 2) = 3 ∧
    ((⟨0#32, 4#32, 9#32, 9#32⟩ : Four Word).get (2 - 1)).toNat ≤ ((⟨0#32, 4#32, 9#32, 9#32⟩ : Four Word).get 2).toNat ∧
    (⟨0#32, 4#32, 9#32, 9#32⟩ : Four Word).get (3 - 1) = (⟨0#32, 4#32, 9#32, 9#32⟩ : Four Word).get 3 := by decide

/-- Without the wrapper: a command with D = 1, and one with D = 0. -/
theorem test_witness_WithoutWrapperDiffIsIllegal :
    (noDelta (idleOn (.streamInline true))).Accepts (lineRequest (.streamInline true)) ∧
    (lineRequest (.streamInline true)).cmd.getLsbD 3 = true ∧
    (noDelta (idleOn (lineS2 .split 16))).Accepts (lineRequest (lineS2 .split 16)) ∧
    (noDelta (idleOn (lineS2 .split 16))).params.hasDelta = false ∧
    decode (noDelta (idleOn (lineS2 .split 16))).params (lineRequest (lineS2 .split 16)).cmd = .instr (.encC .split false) :=
  ⟨⟨rfl, rfl, rfl, rfl, rfl⟩, by decide, ⟨rfl, rfl, rfl, rfl, rfl⟩, rfl, by decide⟩

/-- B11. -/
theorem test_witness_DecodeWithoutDiffReturnsDeltas :
    ∃ t, exec (.decC .split true) (busyOn (.decSplit true true 0x00#8 4 [0xFF#8, 0x01#8, 0x01#8, 0x01#8])) = .next t ∧
      t.rsp.status = .ok := ⟨_, rfl, by decide⟩

theorem test_witness_BigEndianReadIsExact : 4 ≤ 4 ∧ (rdBE (lanesOf fourBytes) 0 4) = 0x01020304#32 := by decide

/-- `in_len` exactly `need`, one less, and an inline buffer that is empty. -/
theorem test_witness_DecUncheckedResult :
    (busyOn (.decInline false false 5 [0x00#8])).RomIntact ∧
    CtrlByteIs .inline (busyOn (.decInline false false 5 [0x00#8])).req 0x00#8 ∧
    quadNeed .inline 0x00#8 = (busyOn (.decInline false false 5 [0x00#8])).req.inLen ∧
    CtrlByteIs .inline (busyOn (.decInline false false 4 [0x00#8])).req 0x00#8 ∧
    (busyOn (.decInline false false 4 [0x00#8])).req.inLen < quadNeed .inline 0x00#8 ∧
    (busyOn (.decInline false false 0 [])).req.inLen = 0 :=
  ⟨rfl, ⟨by decide, rfl⟩, by decide, ⟨by decide, rfl⟩, by decide, rfl⟩

/-- `in_len` exactly `need`, one less, and an inline buffer that is empty. -/
theorem test_witness_DecCheckedResult :
    (busyOn (.decSplit true false 0xFF#8 16 fourBytes)).RomIntact ∧
    CtrlByteIs .split (busyOn (.decSplit true false 0xFF#8 16 fourBytes)).req 0xFF#8 ∧
    quadNeed .split 0xFF#8 = (busyOn (.decSplit true false 0xFF#8 16 fourBytes)).req.inLen ∧
    CtrlByteIs .split (busyOn (.decSplit true false 0xFF#8 15 fourBytes)).req 0xFF#8 ∧
    (busyOn (.decSplit true false 0xFF#8 15 fourBytes)).req.inLen < quadNeed .split 0xFF#8 ∧
    (busyOn (.decInline true false 0 [])).req.inLen = 0 :=
  ⟨rfl, rfl, by decide, rfl, by decide, rfl⟩

/-- Two buffers that differ from lane 5 on; two that differ from lane 1 on, with too few valid lanes; an empty buffer. -/
theorem test_witness_DecodersReadOnlyValidLanes :
    (busyOn (.decInline true false 5 [0x00#8])).RomIntact ∧
    CtrlByteIs .inline (busyOn (.decInline true false 5 [0x00#8])).req 0x00#8 ∧
    (∀ j : Fin laneCount, j.val < min (quadNeed .inline 0x00#8) 5 →
      (lanesOf [0x00#8, 0x00#8, 0x00#8, 0x00#8, 0x00#8, 0xEE#8])[j] = (busyOn (.decInline true false 5 [0x00#8])).req.bufIn[j]) ∧
    CtrlByteIs .inline (busyOn (.decInline true false 4 [0x00#8])).req 0x00#8 ∧ 4 < quadNeed .inline 0x00#8 ∧
    (lanesOf [0x00#8, 0xEE#8])[0] = (busyOn (.decInline true false 4 [0x00#8])).req.bufIn[0] ∧
    (busyOn (.decInline true false 0 [])).req.inLen = 0 :=
  ⟨rfl, ⟨by decide, rfl⟩, by decide, ⟨by decide, rfl⟩, by decide, by decide, rfl⟩

/-- S2: what ENC.C writes with capacity 17, and a buffer that holds it. -/
theorem test_witness_EncodeThenDecodeReturnsQuad :
    17 ≤ (busyOn (lineS2 .split 17)).req.outCap ∧
    ∃ t, exec (.encC .split false) (busyOn (lineS2 .split 17)) = .next t ∧
      (busyOn (.decSplit true false 0x01#8 5 [0x01#8, 0x02#8, 0x03#8, 0x04#8, 0x00#8])).RomIntact ∧
      (busyOn (.decSplit true false 0x01#8 5 [0x01#8, 0x02#8, 0x03#8, 0x04#8, 0x00#8])).req.inLen = t.rsp.nbytes.toNat ∧
      (busyOn (.decSplit true false 0x01#8 5 [0x01#8, 0x02#8, 0x03#8, 0x04#8, 0x00#8])).req.ctrlIn = t.rsp.ctrlOut ∧
      ∀ j : Fin laneCount, j.val < t.rsp.nbytes.toNat →
        (busyOn (.decSplit true false 0x01#8 5 [0x01#8, 0x02#8, 0x03#8, 0x04#8, 0x00#8])).req.bufIn[j] = t.rsp.out.data[j] :=
  ⟨by decide, _, rfl, rfl, by decide, by decide, by decide⟩

theorem test_witness_StreamOpensWithPull :
    (busyOn (.streamInline true)).RomIntact ∧ (busyOn (.streamInline true)).phase = .busy ∧
    (busyOn (.streamSplit false 0x01#8)).RomIntact ∧ (busyOn (.streamSplit false 0x01#8)).phase = .busy := ⟨rfl, rfl, rfl, rfl⟩

/-- The reset state, a DEC.S with control byte 0x00 and its four bytes to come. -/
def streamFour : State :=
  withInputs (present (.streamSplit false 0x00#8) :: (fourBytes.map fun b => answerInput (.byte b)) ++ [take])

/-- The last count of answers before `need` is 3. -/
theorem test_witness_StreamDecodesQuad :
    streamFour.RomIntact ∧ streamFour.Accepts (lineRequest (.streamSplit false 0x00#8)) ∧
    decode streamFour.params (lineRequest (.streamSplit false 0x00#8)).cmd = .instr (.decS .split false) ∧
    StreamUnit .split (lineRequest (.streamSplit false 0x00#8)) 0x00#8 fourBytes ∧
    streamFour.env = present (.streamSplit false 0x00#8) :: (fourBytes.map fun b => answerInput (.byte b)) ++ [take] ∧
    3 < quadNeed .split 0x00#8 :=
  ⟨rfl, ⟨rfl, rfl, rfl, rfl, rfl⟩, by decide, ⟨by decide, rfl⟩, rfl, by decide⟩

/-- An inline DEC.S whose source fails after the control byte and three data bytes. -/
def streamFails : State :=
  withInputs (present (.streamInline false) ::
    (((0x00#8 :: fourBytes).take 4).map fun b => answerInput (.byte b)) ++ answerInput (.fail 255) :: [])

/-- One byte short of `need`, with the largest code that fits. -/
theorem test_witness_StreamFailureEndsAtOnce :
    streamFails.RomIntact ∧ streamFails.Accepts (lineRequest (.streamInline false)) ∧
    decode streamFails.params (lineRequest (.streamInline false)).cmd = .instr (.decS .inline false) ∧
    StreamUnit .inline (lineRequest (.streamInline false)) 0x00#8 (0x00#8 :: fourBytes) ∧
    4 < quadNeed .inline 0x00#8 ∧ 255 < 2 ^ streamFails.params.errw ∧
    streamFails.env = present (.streamInline false) ::
      (((0x00#8 :: fourBytes).take 4).map fun b => answerInput (.byte b)) ++ answerInput (.fail 255) :: [] :=
  ⟨rfl, ⟨rfl, rfl, rfl, rfl, rfl⟩, by decide, ⟨by decide, rfl⟩, by decide, by decide, rfl⟩

theorem test_witness_StreamWaitsForAnswer :
    nearlyDone.phase = .busy ∧ nearlyDone.prog.isSome = true ∧ nearlyDone.input.rst = false ∧
    nearlyDone.protocolError = none ∧ nearlyDone.input.src = .quiet := by decide

/-- The stream of four bytes and a buffer of the same bytes. -/
theorem test_witness_DecodersShareOneRule :
    streamFour.RomIntact ∧ streamFour.Accepts (lineRequest (.streamSplit false 0x00#8)) ∧
    decode streamFour.params (lineRequest (.streamSplit false 0x00#8)).cmd = .instr (.decS .split false) ∧
    StreamUnit .split (lineRequest (.streamSplit false 0x00#8)) 0x00#8 fourBytes ∧
    streamFour.env = present (.streamSplit false 0x00#8) :: (fourBytes.map fun b => answerInput (.byte b)) ++ [take] ∧
    (busyOn (.decSplit true false 0x00#8 4 fourBytes)).RomIntact ∧
    CtrlByteIs .split (busyOn (.decSplit true false 0x00#8 4 fourBytes)).req 0x00#8 ∧
    quadNeed .split 0x00#8 ≤ (busyOn (.decSplit true false 0x00#8 4 fourBytes)).req.inLen ∧
    ∀ j : Fin laneCount, j.val < quadNeed .split 0x00#8 →
      (busyOn (.decSplit true false 0x00#8 4 fourBytes)).req.bufIn[j] = fourBytes.getD j.val 0#8 :=
  ⟨rfl, ⟨rfl, rfl, rfl, rfl, rfl⟩, by decide, ⟨by decide, rfl⟩, rfl, rfl, rfl, by decide, by decide⟩

/-- E11 answers FATAL; the response is then taken. -/
theorem test_witness_FatalEntryHaltsCore :
    ∃ t, step (withInputs [present (.enc false .split false ⟨1#32, 2#32, 3#32, 1024#32⟩ 4), take]) = .next t ∧
      State.reset.phase ≠ .resp ∧ t.phase = .resp ∧ t.rsp.status = .fatal ∧ t.Takes :=
  ⟨_, rfl, by decide, rfl, rfl, rfl, rfl, rfl, rfl⟩

/-- A core in HALT, an input left. -/
def halted : State := { State.reset with phase := .halt, fault := true, env := [present (.lutRd 0x00#8)] }

theorem test_witness_HaltIsPermanentUntilReset :
    halted.phase = .halt ∧ halted.input.rst = false ∧ ∃ t, step halted = .next t := ⟨rfl, rfl, _, rfl⟩

/-- FAULT set by a step, kept by a step, cleared by reset. -/
theorem test_witness_FaultIsSticky :
    (∃ t, step (idleOn (.decInline false false 0 [])) = .next t ∧ t.fault = true) ∧
    (∃ t, step halted = .next t ∧ halted.fault = true ∧ halted.input.rst = false) ∧
    (∃ t, step { halted with env := [{ Input.quiet with rst := true }] } = .next t ∧
      State.input { halted with env := [{ Input.quiet with rst := true }] } = { Input.quiet with rst := true }) :=
  ⟨⟨_, rfl, rfl⟩, ⟨_, rfl, rfl, rfl⟩, ⟨_, rfl, rfl⟩⟩

/-- A checked command short of capacity, an unchecked one, and a failing source. -/
theorem test_witness_TiersAreNotMerged :
    (busyOn (lineS2 .split 4)).phase = .busy ∧ (Instr.encC .split false).checked = true ∧
    (∃ t, exec (.encC .split false) (busyOn (lineS2 .split 4)) = .next t ∧ t.phase = .resp) ∧
    (Instr.encU .split false).checked = false ∧ (∃ t, exec (.encU .split false) (busyOn (lineS2 .split 4)) = .next t) ∧
    (∃ p, nearlyDone.prog = some p ∧ (nearlyDone.takeAnswer p (.fail 2)).phase = .resp) :=
  ⟨rfl, rfl, ⟨_, rfl, rfl⟩, rfl, ⟨_, rfl⟩, ⟨_, rfl, rfl⟩⟩

theorem test_witness_NonOkOutcomesArePrecise :
    ∃ t, step (idleOn (lineS2 .split 4)) = .next t ∧ (idleOn (lineS2 .split 4)).input.rst = false ∧
      (idleOn (lineS2 .split 4)).phase ≠ .resp ∧ t.phase = .resp ∧ t.rsp.status ≠ .ok :=
  ⟨_, rfl, rfl, by decide, by decide, by decide⟩

/-- Every field of a bare response but its status is 0, so a rule can give it. -/
theorem test_bare_response_ok (st : Status) : ResponseOk (bareResponse st) := by
  refine ⟨fun _ => rfl, fun _ => rfl, .inl rfl, ?_, ?_⟩
  · intro j h; simp [bareResponse, Response.zero, OutLanes.clear] at h
  · intro j _; simp [bareResponse, Response.zero, OutLanes.clear]

/-- A core in RESP that holds a response, ILLEGAL, and takes it next, meets the invariant. -/
theorem test_inv_resp : ({ holding (bareResponse .illegal) with env := [take] } : State).Inv :=
  ⟨rfl, iff_of_false (by decide) (by decide), ⟨by decide, fun _ h => by cases h⟩,
    ⟨test_bare_response_ok _, fun h => absurd rfl h⟩, fun h => absurd h (by decide), by decide⟩

/-- A DEC.S that waits for its fourth answer, another input before it, meets the invariant. -/
theorem test_inv_busy : ({ nearlyDone with env := [answerInput (.byte 0x04#8)] } : State).Inv :=
  ⟨rfl, rfl, ⟨by decide, by intro p hp; cases hp; simp only [progOk]; decide⟩,
    ⟨test_bare_response_ok .ok, fun _ => rfl⟩, fun h => absurd h (by decide), by decide⟩

theorem test_witness_PhasesFollowTheirTransitions :
    (∃ t, State.Inv { holding (bareResponse .illegal) with env := [take] } ∧
      step { holding (bareResponse .illegal) with env := [take] } = .next t) ∧
    (∃ t, State.Inv { nearlyDone with env := [answerInput (.byte 0x04#8)] } ∧
      step { nearlyDone with env := [answerInput (.byte 0x04#8)] } = .next t) :=
  ⟨⟨_, test_inv_resp, rfl⟩, ⟨_, test_inv_busy, rfl⟩⟩

/-- An encoding held while the caller is not ready, its request kept. -/
theorem test_witness_HeldResponseIsKept :
    ∃ t, step (idleOn (lineS2 .split 5)) = .next t ∧ t.phase = .resp ∧ t.input.rst = false ∧ t.protocolError = none ∧
      t.input.rspReady = false ∧ t.rsp.nbytes = 5#5 ∧ t.req.outCap = 5 := ⟨_, rfl, by decide⟩

theorem test_witness_RecoverableOutcomeReturnsToIdle :
    ({ holding (bareResponse .illegal) with env := [take] } : State).Takes ∧
    (holding (bareResponse .illegal)).fault = false := ⟨⟨rfl, rfl, rfl, rfl⟩, rfl⟩

/-- Two states with one ROM and one request that an earlier transaction left different. -/
theorem test_witness_ResponseDependsOnListedFieldsOnly :
    (busyOn (lineS2 .split 5)).rom = ({ busyOn (lineS2 .split 5) with ob := [(0, 1#8)] } : State).rom ∧
    (busyOn (lineS2 .split 5)).req = ({ busyOn (lineS2 .split 5) with ob := [(0, 1#8)] } : State).req ∧
    (busyOn (lineS2 .split 5)).RomIntact ∧
    (busyOn (.streamSplit false 0x00#8)).req.ctrlIn = (noDelta (busyOn (.streamSplit false 0x00#8))).req.ctrlIn ∧
    (busyOn (.streamSplit false 0x00#8)).rom = (noDelta (busyOn (.streamSplit false 0x00#8))).rom ∧
    (busyOn (.streamSplit false 0x00#8)).RomIntact ∧
    (busyOn (lineS2 .split 5)).params.errw = ({ busyOn (lineS2 .split 5) with ob := [(0, 1#8)] } : State).params.errw ∧
    (busyOn (lineS2 .split 5)).phase = .busy := ⟨rfl, rfl, rfl, rfl, rfl, rfl, rfl, rfl⟩

/-- A request withdrawn, an answer nobody asked for, a late answer after no reset, and HALT with no input left. -/
theorem test_witness_StopsOnlyOutsideTheSpec :
    step { State.reset with pending := some (lineRequest (.lutRd 0x00#8)), env := [Input.quiet] } = .refused .requestUnstable ∧
    step (withInputs [answerInput (.byte 0#8)]) = .refused .sourceUnasked ∧
    step (withInputs [{ Input.quiet with src := .late (.byte 0#8) }]) = .refused .sourceUnasked ∧
    ({ halted with env := [] } : State).RomIntact ∧ step { halted with env := [] } = .fault .halted :=
  ⟨rfl, rfl, rfl, rfl, rfl⟩

/-- Lane 4 is written with `out_cap` 5 and kept with 4; lane 5 has no enable; lane 17 is no lane. -/
theorem test_witness_OutputBufferUpdatedByLane :
    4 < laneCount ∧ 4 < 5 ∧ (placeQuad .split 0x01#8 ⟨1#32, 2#32, 3#32, 1024#32⟩ ⟨1, 1, 1, 2⟩).we[4] = true ∧ 4 ≤ 4 ∧
    (placeQuad .split 0x01#8 ⟨1#32, 2#32, 3#32, 1024#32⟩ ⟨1, 1, 1, 2⟩).we[5] = false ∧ laneCount ≤ 17 := by decide

theorem test_witness_OnlyTakingAnOkResponseWrites :
    (∃ t, step (idleOn (lineS2 .split 5)) = .next t ∧ ¬ (idleOn (lineS2 .split 5)).Takes) ∧
    (∃ t, step { holding (bareResponse .illegal) with env := [take] } = .next t ∧
      State.Takes { holding (bareResponse .illegal) with env := [take] } ∧
      State.RspAgrees { holding (bareResponse .illegal) with env := [take] } ∧
      (holding (bareResponse .illegal)).rsp.status ≠ .ok) :=
  ⟨⟨_, rfl, fun h => absurd h.1 (by decide)⟩, ⟨_, rfl, ⟨rfl, rfl, rfl, rfl⟩,
    test_inv_resp.rsp, by decide⟩⟩

/-- Capacity exactly `need`. -/
theorem test_witness_EncodeTransactionWritesUnit :
    (withInputs [present (lineS2 .inline 6), { Input.quiet with rspReady := true }]).Accepts (lineRequest (lineS2 .inline 6)) ∧
    decode Params.default (lineRequest (lineS2 .inline 6)).cmd = .instr (.encC .inline false) ∧
    (encQuad .inline false (lineRequest (lineS2 .inline 6)).val).need ≤ (lineRequest (lineS2 .inline 6)).outCap % 2 ^ 8 ∧
    (present (lineS2 .inline 6)).callerWrites = [] :=
  ⟨⟨rfl, rfl, rfl, rfl, rfl⟩, by decide, by decide, rfl⟩

/-- Reset in HALT, which clears FAULT and leaves HALT. -/
theorem test_witness_ResetFromEveryState :
    (State.input { halted with env := [{ Input.quiet with rst := true }] }).rst = true ∧
    ∃ t, step { halted with env := [{ Input.quiet with rst := true }] } = .next t ∧ halted.fault = true ∧
      t.fault = false ∧ halted.phase = .halt ∧ t.phase ≠ .halt := ⟨rfl, _, rfl, rfl, rfl, rfl, by decide⟩

/-- A late answer to a pull that a reset abandoned. -/
theorem test_witness_LateAnswerIsIgnored :
    0 < ({ State.reset with abandoned := 1, env := [{ Input.quiet with src := .late (.byte 9#8) }] } : State).abandoned ∧
    ({ Input.quiet with src := .late (.byte 9#8) } : Input).rst = false ∧
    ∃ t, step { State.reset with abandoned := 1, env := [{ Input.quiet with src := .late (.byte 9#8) }] } = .next t :=
  ⟨by decide, rfl, _, rfl⟩

/-- A DEC.S with its pull outstanding; reset comes with no answer on the channel, with a late one and with the answer itself;
the late answer comes in the step after. -/
def resetMidPull (src : SrcSignal) : State :=
  { nearlyDone with
    abandoned := 1
    env := [{ Input.quiet with rst := true, src := src }, { Input.quiet with src := .late (.byte 9#8) }] }

theorem test_witness_ResetAbandonsOutstandingPull :
    (resetMidPull .quiet).input.rst = true ∧ (resetMidPull .quiet).srcPull = true ∧ (resetMidPull .quiet).RomIntact ∧
    (∃ t, step (resetMidPull .quiet) = .next t ∧ t.input.src = .late (.byte 9#8) ∧ t.abandoned = 2) ∧
    (∃ t, step (resetMidPull (.late (.byte 8#8))) = .next t ∧ t.abandoned = 1) ∧
    (∃ t, step (resetMidPull (.answer (.byte 8#8))) = .next t ∧ t.abandoned = 0) :=
  ⟨rfl, rfl, rfl, ⟨_, rfl, rfl, rfl⟩, ⟨_, rfl, rfl⟩, ⟨_, rfl, rfl⟩⟩

theorem test_witness_InvariantIsKept :
    ∃ t, State.Inv { nearlyDone with env := [answerInput (.byte 0x04#8)] } ∧
      step { nearlyDone with env := [answerInput (.byte 0x04#8)] } = .next t := ⟨_, test_inv_busy, rfl⟩

end Sys2Proof.Tests
end

section
/-!
PROOFS. The family of the state: what a meaning answers with the ROM intact, how each kind of step keeps the invariant
of the machine, and the claims about FAULT, the phases, the frame of a step and the caller's buffer.
-/

namespace Sys2Proof.Machine

/-! ### What a rule can answer -/

/-- The response of LUT.RD is one a rule can give (R63). -/
theorem responseOk_lut (w : LutWord) : ResponseOk (lutResponse w) := by
  refine ⟨fun h => absurd rfl h, fun _ => rfl, .inl rfl, ?_, ?_⟩
  · intro j h; simp [lutResponse, Response.zero, OutLanes.clear] at h
  · intro j _; simp [lutResponse, Response.zero, OutLanes.clear]

/-- A quad occupies its layout byte and its four lengths, which fit the seventeen lanes (R73). -/
theorem encQuad_need (l : Layout) (d : Bool) (v : Four Word) :
    (encQuad l d v).need = l.size + (encQuad l d v).lens.total ∧
    4 ≤ (encQuad l d v).need ∧ (encQuad l d v).need ≤ 17 := by
  have h0 := blen_bounds (storedQuad d v).x0
  have h1 := blen_bounds (storedQuad d v).x1
  have h2 := blen_bounds (storedQuad d v).x2
  have h3 := blen_bounds (storedQuad d v).x3
  have hl := layout_size_le l
  simp only [encQuad, Four.total, Four.map]
  omega

/-- Every lane of an encoder's response holds its byte of the unit and is enabled below `need` (R71). -/
theorem encResponse_lane (l : Layout) (d : Bool) (v : Four Word) (j : Nat) :
    laneRead (encResponse l (encQuad l d v)).out.data j =
      (unitBytes l (encQuad l d v).ctrl (encQuad l d v).stored (encQuad l d v).lens).getD j 0#8 ∧
    (encResponse l (encQuad l d v)).out.we[j]?.getD false = decide (j < (encQuad l d v).need) := by
  obtain ⟨hneed, -, hle⟩ := encQuad_need l d v
  rw [hneed] at hle ⊢
  exact placeQuad_lane l _ _ _ hle j

/-- The response of an encoder is one a rule can give (R75, R76). -/
theorem responseOk_enc (l : Layout) (d : Bool) (v : Four Word) : ResponseOk (encResponse l (encQuad l d v)) := by
  obtain ⟨hneed, hge, hle⟩ := encQuad_need l d v
  have hn : (encResponse l (encQuad l d v)).nbytes.toNat = (encQuad l d v).need := by
    simp only [encResponse, nbytesField, BitVec.toNat_ofNat]
    exact Nat.mod_eq_of_lt (by omega)
  have hlane : ∀ j : Fin laneCount,
      (encResponse l (encQuad l d v)).out.we[j] = decide (j.val < (encQuad l d v).need) := by
    intro j
    simpa using (encResponse_lane l d v j).2
  refine ⟨fun h => absurd rfl h, fun _ => rfl, .inr (by omega), ?_, ?_⟩
  · intro j hj
    simpa [hlane, hn] using hj
  · intro j hj
    have hout : ¬ j.val < (encQuad l d v).need := by simpa [hlane] using hj
    have hbyte := (encResponse_lane l d v j).1
    rw [laneRead_eq _ _ j.isLt, List.getD_eq_default _ _ (by rw [unitBytes_length]; omega)] at hbyte
    exact hbyte

/-- What a meaning or an answer of the source does when the ROM is intact: it responds with a response a rule can give,
FAULT being set by FATAL alone, or it leaves a DEC.S waiting within the bounds of its progress. -/
inductive RuleCase (s t : State) : Prop where
  | responds (r : Response) (hr : ResponseOk r)
      (ht : t = { s with fault := s.fault || (r.status == .fatal), phase := .resp, rsp := r })
  | waits (p : Prog) (hp : progOk p) (ht : t = { s with prog := some p })

/-- Every raised outcome records only its status and a source failure's code (R104 to R107). -/
theorem ruleCase_raise (s : State) (x : Raise) : RuleCase s (s.raise x) := by
  refine .responds _ (responseOk_bare (raiseStatus x) (raiseCode x) ?_) ?_
  · cases x <;> simp [raiseStatus, raiseCode]
  · cases x <;> rfl

/-- Responding OK leaves FAULT as it is. -/
theorem ruleCase_respond (s : State) {r : Response} (hr : ResponseOk r) (hok : r.status = .ok) :
    RuleCase s (s.respond r) :=
  .responds r hr (by simp [State.respond, hok])

/-- An encoder raises, or responds with its encoding (R75, R76). -/
theorem ruleCase_encodeQuad (s : State) (l : Layout) (d : Bool) (short : Raise) :
    RuleCase s (s.encodeQuad l d short) := by
  rw [encodeQuad_eq]
  split
  · exact ruleCase_raise s short
  · exact ruleCase_respond s (responseOk_enc l d _) rfl

/-- A buffer decoder raises, or responds with the quad and a byte count in [4,17] (R84, R85, R103). -/
theorem ruleCase_decodeBuffer {s t : State} (hrom : s.RomIntact) {l : Layout} {d : Bool} {short : Raise}
    (h : s.decodeBuffer l d short = .next t) : RuleCase s t := by
  rcases decodeBuffer_cases hrom l d short with he | ⟨c, -, -, he⟩
  · rw [he] at h; cases h
    exact ruleCase_raise s short
  · rw [he] at h; cases h
    exact ruleCase_respond s (responseOk_dec _ _ (quadNeed_bounds l c)) rfl

/-- The progress of a DEC.S just accepted is within its bounds (R26). -/
theorem progStart_ok (l : Layout) (d : Bool) (r : Request) : progOk (progStart l d r) := by
  cases l with
  | split =>
    have := (quadNeed_bounds .split r.ctrlIn).1
    simp only [progOk, progStart, streamCtrl, romNeed_contents, Layout.size]
    omega
  | inline => simp [progOk, progStart, streamCtrl]

/-- With the ROM intact DEC.S opens its transaction and completes nothing yet, since a quad has at least four bytes
(R27, R89). -/
theorem exec_decS {s : State} (hrom : s.RomIntact) (l : Layout) (d : Bool) :
    exec (.decS l d) s = .next { s with prog := some (progStart l d s.req) } := by
  show Host.Outcome.next (s.continueStream (progStart l d s.req)) = _
  cases l with
  | inline => rw [continueStream_unknown _ _ rfl]
  | split =>
    have := (quadNeed_bounds .split s.req.ctrlIn).1
    rw [continueStream_known hrom (progStart .split d s.req) (c := s.req.ctrlIn) rfl, if_pos]
    simp only [progStart]
    omega

/-- With the ROM intact every meaning answers as a rule can. -/
theorem exec_ruleCase {i : Instr} {s t : State} (hrom : s.RomIntact) (h : exec i s = .next t) : RuleCase s t := by
  cases i with
  | lutRd => cases h; exact ruleCase_respond s (responseOk_lut _) rfl
  | encU l d => cases h; exact ruleCase_encodeQuad s l d _
  | encC l d => cases h; exact ruleCase_encodeQuad s l d _
  | decU l d => exact ruleCase_decodeBuffer hrom h
  | decC l d => exact ruleCase_decodeBuffer hrom h
  | decS l d => rw [exec_decS hrom] at h; cases h; exact .waits _ (progStart_ok l d s.req) rfl

/-- The command of an accepted request answers as a rule can, ILLEGAL among the answers (R107). -/
theorem runCommand_ruleCase {s t : State} (hrom : s.RomIntact) (h : s.runCommand = .next t) : RuleCase s t := by
  simp only [State.runCommand] at h
  split at h
  · exact exec_ruleCase hrom h
  · cases h; exact ruleCase_raise s .illegal

/-- After a byte the control byte is known, and the count covers it in the inline layout (R89, R92). -/
theorem progByte_known (t : Rom) {p : Prog} (hp : progOk p) (b : Byte) :
    ∃ c, (progByte t p b).ctrl = some c ∧ (progByte t p b).layout.size ≤ (progByte t p b).k := by
  cases hc : p.ctrl with
  | none =>
    obtain ⟨hl, hk⟩ : p.layout = .inline ∧ p.k = 0 := by simpa [progOk, hc] using hp
    exact ⟨b, by simp [progByte, hc], by simp [progByte, hc, hl, hk, Layout.size]⟩
  | some c =>
    obtain ⟨hsize, -⟩ : p.layout.size ≤ p.k ∧ p.k < romNeed romContents p.layout c := by
      simpa only [progOk, hc] using hp
    exact ⟨c, by simp [progByte, hc], by simp [progByte, hc]; omega⟩

/-- An answer of the source, with `prog` emptied when the operation ends (R26, R89, R90). -/
theorem takeAnswer_ruleCase {s : State} (hrom : s.RomIntact) {p : Prog} (hp : progOk p) (a : Answer) :
    RuleCase { s with prog := none } (s.takeAnswer p a) := by
  cases a with
  | fail e => exact ruleCase_raise _ _
  | byte b =>
    obtain ⟨c, hc, hsize⟩ := progByte_known s.rom hp b
    rw [State.takeAnswer, continueStream_known hrom _ hc]
    split
    · rename_i hk
      exact .waits _ (by simpa only [progOk, hc, romNeed_contents] using ⟨hsize, hk⟩) rfl
    · exact ruleCase_respond _ (responseOk_dec _ _ (quadNeed_bounds _ c)) rfl

/-! ### The invariant -/

/-- Outside BUSY no progress is held (R26). -/
theorem State.Inv.prog_none {s : State} (h : s.Inv) (hph : s.phase ≠ .busy) : s.prog = none := by
  cases hp : s.prog with
  | none => rfl
  | some p => exact absurd (h.prog.1.mp (by simp [hp])) hph

/-- In BUSY a progress is held (R26). -/
theorem State.Inv.prog_some {s : State} (h : s.Inv) (hph : s.phase = .busy) : ∃ p, s.prog = some p :=
  Option.isSome_iff_exists.mp (h.prog.1.mpr hph)

/-- In BUSY FAULT is 0 (R20). -/
theorem State.Inv.fault_busy {s : State} (h : s.Inv) (hph : s.phase = .busy) : s.fault = false := by
  simpa only [State.FaultAgrees, hph] using h.fault

/-- In IDLE FAULT is 0 (R20). -/
theorem State.Inv.fault_idle {s : State} (h : s.Inv) (hph : s.phase = .idle) : s.fault = false := by
  simpa only [State.FaultAgrees, hph] using h.fault

/-- A transaction is open and has neither progress nor response: what a request has just been accepted into, and what a
DEC.S is but for its progress. -/
structure State.Opened (s : State) : Prop where
  rom : s.RomIntact
  fault : s.fault = false
  phase : s.phase = .busy
  prog : s.prog = none
  rsp : s.rsp = Response.zero
  ob : Memory.wf s.ob

/-- Between transactions, with nothing kept of the last one, the invariant is met. -/
theorem inv_between {s : State} (hrom : s.RomIntact)
    (hfault : (s.phase = .idle ∧ s.fault = false) ∨ (s.phase = .halt ∧ s.fault = true)) (hprog : s.prog = none)
    (hrsp : s.rsp = Response.zero) (hreq : s.req = Request.zero) (hob : Memory.wf s.ob) : s.Inv := by
  have hbusy : s.phase ≠ .busy := by rcases hfault with ⟨h, -⟩ | ⟨h, -⟩ <;> simp [h]
  refine ⟨hrom, ?_, ⟨?_, ?_⟩, ⟨?_, fun _ => hrsp⟩, fun _ => hreq, hob⟩
  · rcases hfault with ⟨h, hf⟩ | ⟨h, hf⟩ <;> simpa only [State.FaultAgrees, h] using hf
  · simp [hprog, hbusy]
  · simp [hprog]
  · rw [hrsp]; exact responseOk_bare .ok 0 (fun _ => rfl)

/-- What an open transaction does by the rules meets the invariant: the response it completes, or the progress it waits
with. -/
theorem State.Opened.inv_of_ruleCase {s t : State} (hs : s.Opened) (h : RuleCase s t) : t.Inv := by
  rcases h with ⟨r, hr, rfl⟩ | ⟨p, hp, rfl⟩
  · refine ⟨hs.rom, ?_, ?_, ⟨hr, fun h => absurd rfl h⟩, by simp [State.ReqAgrees], hs.ob⟩
    · simp [State.FaultAgrees, hs.fault]
    · simp [State.ProgAgrees, hs.prog]
  · have hok : ResponseOk s.rsp := by rw [hs.rsp]; exact responseOk_bare .ok 0 (fun _ => rfl)
    refine ⟨hs.rom, ?_, ?_, ⟨hok, fun _ => hs.rsp⟩, by simp [State.ReqAgrees, hs.phase], hs.ob⟩
    · simpa only [State.FaultAgrees, hs.phase] using hs.fault
    · simpa [State.ProgAgrees, hs.phase] using hp

/-- Reading an input writes the caller's own bytes alone. -/
theorem State.Inv.readInput {s : State} (h : s.Inv) : s.readInput.Inv :=
  ⟨h.rom, h.fault, h.prog, h.rsp, h.req, memWrites_wf h.ob _⟩

/-- Reset gives a state that meets the invariant wherever the ROM and the buffer are in order (R29). -/
theorem resetStep_inv {s : State} (hrom : s.RomIntact) (hob : Memory.wf s.ob) (x : Input) : (s.resetStep x).Inv :=
  inv_between hrom (.inl ⟨rfl, rfl⟩) rfl rfl rfl (memWrites_wf hob _)

/-- Taking the response keeps the invariant: IDLE with FAULT clear, else HALT (R22). -/
theorem State.Inv.takeResponse {s : State} (h : s.Inv) (hph : s.phase = .resp) : s.takeResponse.Inv := by
  refine inv_between h.rom ?_ (h.prog_none (by simp [hph])) rfl rfl (memApply_wf h.ob _ _)
  cases hf : s.fault <;> simp [hf]

/-- Accepting a request opens a transaction (R22). -/
theorem State.Inv.accept_opened {s : State} (h : s.Inv) (hph : s.phase = .idle) (r : Request) :
    (s.accept r).Opened where
  rom := h.rom
  fault := h.fault_idle hph
  phase := rfl
  prog := h.prog_none (by simp [hph])
  rsp := h.rsp.2 (by simp [hph])
  ob := h.ob

/-- A DEC.S that waits is an open transaction but for its progress (R26). -/
theorem State.Inv.busy_opened {s : State} (h : s.Inv) (hph : s.phase = .busy) :
    ({ s with prog := none } : State).Opened where
  rom := h.rom
  fault := h.fault_busy hph
  phase := hph
  prog := rfl
  rsp := h.rsp.2 (by simp [hph])
  ob := h.ob

/-- Every step keeps the invariant. -/
theorem State.Inv.step {s t : State} (h : s.Inv) (hstep : step s = .next t) : t.Inv := by
  cases step_cases hstep with
  | reset _ ht => rw [ht]; exact resetStep_inv h.rom h.ob _
  | waits _ _ ht _ => rw [ht]; exact h.readInput
  | accepts r ha ht =>
    exact (h.readInput.accept_opened ha.1 r).inv_of_ruleCase (runCommand_ruleCase h.rom ht)
  | runs _ _ hi hn _ =>
    obtain ⟨p, hp⟩ := h.prog_some hi
    simp [hp] at hn
  | answers _ _ hi p a hn _ ht =>
    rw [ht]
    exact (h.readInput.busy_opened hi).inv_of_ruleCase (takeAnswer_ruleCase h.readInput.rom (h.prog.2 p hn) a)
  | takes hk ht => rw [ht]; exact h.readInput.takeResponse hk.1

/-- Settles O56: a transaction opened, answered, taken or reset meets the invariant again, case by case of the step. -/
theorem invariantIsKept : Obligations.InvariantIsKept :=
  fun _ _ hs hstep => hs.step hstep

/-- Settles O57: the reset state is between transactions, with everything 0. -/
theorem resetStateMeetsInvariant : Obligations.ResetStateMeetsInvariant :=
  inv_between rfl (.inl ⟨rfl, rfl⟩) rfl rfl rfl List.Pairwise.nil

end Sys2Proof.Machine
end

section
/-!
PROOFS. The work of a phase and its frame: what a meaning, an unrun command or an answer of the source can do to any
state, and from it the claims about the ROM, FAULT and the phases.
-/

namespace Sys2Proof.Machine

/-! ### The work of a step -/

/-- What running a command or taking an answer does to a state, whatever its ROM: it responds, FAULT being set by FATAL
alone, or it leaves a DEC.S waiting. -/
inductive WorkCase (s t : State) : Prop where
  | responds (r : Response) (p : Option Prog)
      (ht : t = { s with fault := s.fault || (r.status == .fatal), phase := .resp, rsp := r, prog := p })
  | waits (p : Prog) (ht : t = { s with prog := some p })

/-- The command of an accepted request does such work. -/
theorem runCommand_work {s t : State} (h : s.runCommand = .next t) : WorkCase s t := by
  rcases runCommand_cases h with ⟨r, p, -, -, ht⟩ | ⟨p, ht⟩
  · exact .responds r p ht
  · exact .waits p ht

/-- An answer of the source does such work. -/
theorem takeAnswer_work (s : State) (p : Prog) (a : Answer) : WorkCase s (s.takeAnswer p a) := by
  rcases takeAnswer_cases s p a with ⟨b, -, h⟩ | ⟨e, -, h⟩
  · rcases continueStream_cases s (progByte s.rom p b) with hw | ⟨v, n, hr⟩
    · exact .waits _ (h.trans hw)
    · exact .responds (decResponse v n) none (by simp [h, hr, decResponse])
  · exact .responds { Response.zero with status := .srcError, errCode := errOnPort s.params e } none (by simp [h])

/-- Work changes neither the ROM nor the parameters. -/
theorem WorkCase.rom_params {s t : State} (h : WorkCase s t) : t.rom = s.rom ∧ t.params = s.params := by
  rcases h with ⟨r, p, rfl⟩ | ⟨p, rfl⟩ <;> exact ⟨rfl, rfl⟩

/-- Work leaves the phase as it is or completes a response. -/
theorem WorkCase.phase {s t : State} (h : WorkCase s t) : t.phase = s.phase ∨ t.phase = .resp := by
  rcases h with ⟨r, p, rfl⟩ | ⟨p, rfl⟩
  · exact .inr rfl
  · exact .inl rfl

/-- Work in BUSY leaves FAULT set, or sets it by completing FATAL. -/
theorem WorkCase.fault_iff {s t : State} (h : WorkCase s t) (hph : s.phase = .busy) :
    t.fault = true ↔ s.fault = true ∨ (t.phase = .resp ∧ t.rsp.status = .fatal) := by
  rcases h with ⟨r, p, rfl⟩ | ⟨p, rfl⟩ <;> simp [hph]

/-! ### The frame of a step -/

/-- Settles O16: each case of a step leaves both fields alone. -/
theorem noStepChangesRomOrParams : Obligations.NoStepChangesRomOrParams := by
  intro s t h
  cases step_cases h with
  | reset _ ht => rw [ht]; exact ⟨rfl, rfl⟩
  | waits _ _ ht _ => rw [ht]; exact ⟨rfl, rfl⟩
  | accepts r _ ht => exact (runCommand_work ht).rom_params
  | runs _ _ _ _ ht => exact (runCommand_work ht).rom_params
  | answers _ _ _ p a _ _ ht => rw [ht]; exact (takeAnswer_work s.readInput p a).rom_params
  | takes _ ht => rw [ht]; exact ⟨rfl, rfl⟩

/-- Without reset a step leaves FAULT set, or sets it by completing FATAL (R20, R108). -/
theorem step_fault_iff {s t : State} (h : step s = .next t) (hr : s.input.rst = false) :
    t.fault = true ↔ s.fault = true ∨ (s.phase ≠ .resp ∧ t.phase = .resp ∧ t.rsp.status = .fatal) := by
  cases step_cases h with
  | reset hrst _ => simp [hr] at hrst
  | waits _ _ ht _ =>
    rw [ht]
    exact ⟨.inl, fun hf => hf.resolve_right fun ⟨hn, hp, _⟩ => hn hp⟩
  | accepts r ha ht => simpa [ha.1] using (runCommand_work ht).fault_iff rfl
  | runs _ _ hi _ ht => simpa [hi] using (runCommand_work ht).fault_iff hi
  | answers _ _ hi p a _ _ ht => rw [ht]; simpa [hi] using (takeAnswer_work s.readInput p a).fault_iff hi
  | takes hk ht => simp [ht, hk.1]

/-- Settles O43: reset clears FAULT, and `step_fault_iff` says the rest. -/
theorem faultIsSticky : Obligations.FaultIsSticky := by
  refine ⟨rfl, fun s t h => ⟨fun hr => ?_, fun hr hs => ?_, fun hr hs => ?_, rfl⟩⟩
  · rw [step_reset hr] at h; cases h; rfl
  · exact (step_fault_iff h hr).mpr (.inl hs)
  · simpa [hs] using step_fault_iff h hr

/-! ### The phases -/

/-- Under the invariant a request is accepted exactly in IDLE (R22). -/
theorem State.Inv.reqReady_iff {s : State} (h : s.Inv) : s.reqReady = true ↔ s.phase = .idle := by
  refine ⟨fun hr => ?_, fun hi => by simp [State.reqReady, hi, h.fault_idle hi]⟩
  obtain ⟨hi, -⟩ : s.phase = .idle ∧ s.fault = false := by simpa [State.reqReady] using hr
  exact hi

/-- Settles O46: the phase after each case of a step; BUSY without progress and IDLE with FAULT = 1 are not met under
the invariant. -/
theorem phasesFollowTheirTransitions : Obligations.PhasesFollowTheirTransitions := by
  intro s hs
  refine ⟨by simp [State.rspValid], hs.reqReady_iff, fun t h => ⟨fun hr => ?_, fun hr => ?_⟩⟩
  · rw [step_reset hr] at h; cases h; rfl
  cases step_cases h with
  | reset hrst _ => simp [hr] at hrst
  | waits _ _ ht hw =>
    rcases hw with ⟨hi, hq⟩ | ⟨hi, -⟩ | ⟨hi, hk⟩ | hi
    · have hnone : s.input.req = none := hq.resolve_right (by simp [hs.fault_idle hi])
      simp [hi, hnone, ht]
    · simp [hi, ht]
    · simp [hi, hk, ht]
    · simp [hi, ht]
  | accepts r ha ht =>
    obtain ⟨hi, -, -, -, hq⟩ := ha
    simpa [hi, hq] using (runCommand_work ht).phase
  | runs _ _ hi hn _ =>
    obtain ⟨p, hp⟩ := hs.prog_some hi
    simp [hp] at hn
  | answers _ _ hi p a _ _ ht =>
    rw [ht]; simpa [hi] using (takeAnswer_work s.readInput p a).phase
  | takes hk ht =>
    obtain ⟨hi, -, -, hready⟩ := hk
    cases hf : s.fault <;> simp [hi, hready, ht, hf]

end Sys2Proof.Machine
end

section
/-!
PROOFS. Accepting a request, holding a response, waiting for the source, and what a response depends on.
-/

namespace Sys2Proof.Machine

/-! ### Acceptance and waiting -/

/-- A request whose numbers fit LENW bits stands on the wires as it is (R16). -/
theorem requestOnPort_of_fits {p : Params} {r : Request} (hin : r.inLen < 2 ^ p.lenw) (hout : r.outCap < 2 ^ p.lenw) :
    requestOnPort p r = r := by
  simp only [requestOnPort, Nat.mod_eq_of_lt hin, Nat.mod_eq_of_lt hout]

/-- Settles O9: the accepting step runs the sampled command word, which is the word presented. -/
theorem stepRunsAcceptedCommand : Obligations.StepRunsAcceptedCommand := by
  intro s r i ha hd
  have hword : decode (s.readInput.accept r).params (s.readInput.accept r).req.cmd = .instr i := hd
  rw [step_accepts ha, State.runCommand, hword]

/-- Settles O10: field by field, and whole where the numbers fit. -/
theorem acceptedRequestIsSampled : Obligations.AcceptedRequestIsSampled :=
  fun _ _ => ⟨rfl, rfl, rfl, rfl, rfl, requestOnPort_of_fits, rfl, rfl, rfl, rfl, rfl, rfl⟩

/-- Settles O39: a step in BUSY with a quiet source only reads its input. -/
theorem streamWaitsForAnswer : Obligations.StreamWaitsForAnswer := by
  intro s p hi hn hr hp hs
  refine ⟨?_, by simp [State.srcPull, hi, hn], hn⟩
  rw [step_busy hr hp hi]
  simp [State.busyStep, hn, hs]

/-- Settles O58: a step in RESP with `rsp_ready = 0` only reads its input. -/
theorem heldResponseIsKept : Obligations.HeldResponseIsKept := by
  intro s hi hr hp hk
  refine ⟨s.readInput, ?_, rfl, hi, by simp [State.rspValid, hi], rfl, rfl, rfl, rfl, rfl, rfl, rfl⟩
  rw [step_resp hr hp hi]
  simp [State.respStep, hk]

/-- Settles O53: every field by the definition of the reset state. -/
theorem resetStateIsAsStated : Obligations.ResetStateIsAsStated :=
  ⟨rfl, rfl, rfl, rfl, rfl, rfl, rfl, rfl, rfl, rfl⟩

/-- Settles O36: `exec_decS` with the fields of the progress it starts with. -/
theorem streamOpensWithPull : Obligations.StreamOpensWithPull := by
  intro l d s hrom hi
  refine ⟨progStart l d s.req, exec_decS hrom l d, by simp [State.srcPull, hi], rfl, rfl, rfl, rfl, ?_, ?_⟩
  · rintro rfl; rfl
  · rintro rfl; rfl

/-! ### What a response depends on -/

/-- Two outcomes of two states are the same answer: both raise `short`, or both respond with one response. -/
def SameAnswer (s u : State) (short : Raise) (o o' : Host.Outcome State Fault Refusal) : Prop :=
  (o = .next (s.raise short) ∧ o' = .next (u.raise short)) ∨
  ∃ r, o = .next (s.respond r) ∧ o' = .next (u.respond r)

/-- The same answer of the unchecked tier: one response, FAULT set in both states or in neither. -/
theorem SameAnswer.unchecked {s u : State} {o o' : Host.Outcome State Fault Refusal} (h : SameAnswer s u .fatal o o') :
    ∃ r f, o = .next { s with fault := s.fault || f, phase := .resp, rsp := r } ∧
      o' = .next { u with fault := u.fault || f, phase := .resp, rsp := r } := by
  rcases h with ⟨hs, hu⟩ | ⟨r, hs, hu⟩
  · exact ⟨_, true, hs, hu⟩
  · exact ⟨r, false, by simp [hs, State.respond], by simp [hu, State.respond]⟩

/-- Raising INSUFFICIENT leaves FAULT as it is (R104). -/
theorem raise_insufficient (s : State) :
    s.raise .insufficient = { s with phase := .resp, rsp := bareResponse .insufficient } := by
  simp [raise_eq, raiseFaults, raiseStatus, raiseCode, bareResponse, Response.zero]

/-- The same answer of the checked tier: one response, FAULT as before. -/
theorem SameAnswer.checked {s u : State} {o o' : Host.Outcome State Fault Refusal}
    (h : SameAnswer s u .insufficient o o') :
    ∃ r, o = .next { s with phase := .resp, rsp := r } ∧ o' = .next { u with phase := .resp, rsp := r } := by
  rcases h with ⟨hs, hu⟩ | ⟨r, hs, hu⟩
  · exact ⟨_, hs.trans (congrArg _ (raise_insufficient s)), hu.trans (congrArg _ (raise_insufficient u))⟩
  · exact ⟨r, hs, hu⟩

/-- An encoder reads the values and the capacity alone (R30). -/
theorem encodeQuad_sameAnswer {s u : State} (hval : s.req.val = u.req.val) (hcap : s.req.outCap = u.req.outCap)
    (l : Layout) (d : Bool) (short : Raise) :
    SameAnswer s u short (.next (s.encodeQuad l d short)) (.next (u.encodeQuad l d short)) := by
  rw [encodeQuad_eq, encodeQuad_eq, hval, hcap]
  split
  · exact .inl ⟨rfl, rfl⟩
  · exact .inr ⟨_, rfl, rfl⟩

/-- The control byte of a buffer decode depends on the buffer, its length and, with L = 0, on `ctrl_in` (R79). -/
theorem bufferCtrl_congr {l : Layout} {r q : Request} (hctrl : l = .split → r.ctrlIn = q.ctrlIn)
    (hbuf : r.bufIn = q.bufIn) (hlen : r.inLen = q.inLen) : bufferCtrl l r = bufferCtrl l q := by
  cases l with
  | split => simp only [bufferCtrl, hctrl rfl]
  | inline => simp only [bufferCtrl, hbuf, hlen]

/-- The control byte a stream decode starts with depends on `ctrl_in` in the split layout alone (R79). -/
theorem progStart_congr {l : Layout} {r q : Request} (hctrl : l = .split → r.ctrlIn = q.ctrlIn) (d : Bool) :
    progStart l d r = progStart l d q := by
  cases l with
  | split => simp only [progStart, streamCtrl, hctrl rfl]
  | inline => rfl

/-- A buffer decoder reads the buffer, its length, `ctrl_in` in the split layout, and the ROM (R30). -/
theorem decodeBuffer_sameAnswer {s u : State} (hs : s.RomIntact) (hu : u.RomIntact) {l : Layout}
    (hctrl : l = .split → s.req.ctrlIn = u.req.ctrlIn) (hbuf : s.req.bufIn = u.req.bufIn)
    (hlen : s.req.inLen = u.req.inLen) (d : Bool) (short : Raise) :
    SameAnswer s u short (s.decodeBuffer l d short) (u.decodeBuffer l d short) := by
  have hc := bufferCtrl_congr hctrl hbuf hlen
  cases hb : bufferCtrl l s.req with
  | none =>
    obtain ⟨hl, hn⟩ := bufferCtrl_none.mp hb
    exact .inl ⟨decodeBuffer_of_none d short hl hn, decodeBuffer_of_none d short hl (hlen ▸ hn)⟩
  | some c =>
    rw [decodeBuffer_of_ctrl hs d short (ctrlByteIs_of_bufferCtrl hb),
      decodeBuffer_of_ctrl hu d short (ctrlByteIs_of_bufferCtrl (hc ▸ hb)), hbuf, hlen]
    split
    · exact .inl ⟨rfl, rfl⟩
    · exact .inr ⟨_, rfl, rfl⟩

/-- Two states after the same work on a stream decode: one progress, one phase, and in RESP one response. -/
def SameProgress (t v : State) : Prop :=
  t.prog = v.prog ∧ t.phase = v.phase ∧ (t.phase = .resp → t.rsp = v.rsp)

/-- Going on with a stream decode reads the progress and the ROM alone (R30). -/
theorem continueStream_sameProgress {s u : State} (hrom : s.rom = u.rom) (hs : s.phase = .busy) (hu : u.phase = .busy)
    (p : Prog) : SameProgress (s.continueStream p) (u.continueStream p) := by
  have waits : SameProgress { s with prog := some p } { u with prog := some p } :=
    ⟨rfl, hs.trans hu.symm, fun h => by simp [hs] at h⟩
  simp only [State.continueStream, hrom]
  split
  · exact waits
  · split
    · exact waits
    · exact ⟨rfl, rfl, fun _ => rfl⟩

/-- Taking an answer reads the progress, the answer, the ROM and the width of error codes alone (R30). -/
theorem takeAnswer_sameProgress {s u : State} (hrom : s.rom = u.rom) (herr : s.params.errw = u.params.errw)
    (hs : s.phase = .busy) (hu : u.phase = .busy) (p : Prog) (a : Answer) :
    SameProgress (s.takeAnswer p a) (u.takeAnswer p a) := by
  cases a with
  | byte b => simp only [State.takeAnswer, hrom]; exact continueStream_sameProgress hrom hs hu _
  | fail e =>
    refine ⟨rfl, rfl, fun _ => ?_⟩
    simp only [State.takeAnswer, raise_rsp, errOnPort, herr]

/-- Settles O48: command by command, from what each shared operation reads. -/
theorem responseDependsOnListedFieldsOnly : Obligations.ResponseDependsOnListedFieldsOnly := by
  intro s u hrom
  refine ⟨fun hctrl => ?_, fun l d hval hcap => ?_, fun l d hs hctrl hbuf hlen => ?_, fun l d hctrl => ?_,
    fun l d hs hctrl => ?_, fun p a herr hs hu => ?_⟩
  · refine ⟨lutResponse (romRead s.rom s.req.ctrlIn), rfl, ?_⟩
    rw [hrom, hctrl]; rfl
  · exact ⟨(encodeQuad_sameAnswer hval hcap l d .fatal).unchecked,
      (encodeQuad_sameAnswer hval hcap l d .insufficient).checked⟩
  · have hu : u.RomIntact := hrom.symm.trans hs
    exact ⟨(decodeBuffer_sameAnswer hs hu hctrl hbuf hlen d .fatal).unchecked,
      (decodeBuffer_sameAnswer hs hu hctrl hbuf hlen d .insufficient).checked⟩
  · exact progStart_congr hctrl d
  · refine ⟨progStart l d s.req, exec_decS hs l d, ?_⟩
    rw [progStart_congr hctrl d]
    exact exec_decS (hrom.symm.trans hs) l d
  · exact takeAnswer_sameProgress hrom herr hs hu p a

/-! ### The caller's output buffer -/

/-- Settles O50: the read of a lane after the update, by whether the lane is enabled and within the capacity. -/
theorem outputBufferUpdatedByLane : Obligations.OutputBufferUpdatedByLane := by
  intro s a
  simp only [takeResponse_ob, memRead_memApply]
  refine ⟨fun h hcap hwe => ?_, fun h hoff => ?_, fun h => ?_⟩
  · rw [if_pos ⟨h, hcap, by simp [h, hwe]⟩, laneRead_eq _ _ h]
  · refine if_neg fun ⟨_, hcap, hwe⟩ => ?_
    rcases hoff with hge | hwe'
    · omega
    · simp [h, hwe'] at hwe
  · exact if_neg fun ⟨hlt, _⟩ => by omega

/-- An encode accepted with capacity for `need` responds with its encoding, in either tier (R75, R76). -/
theorem runCommand_encodes {s : State} {l : Layout} {d : Bool}
    (hi : decode s.params s.req.cmd = .instr (.encU l d) ∨ decode s.params s.req.cmd = .instr (.encC l d))
    (hcap : (encQuad l d s.req.val).need ≤ s.req.outCap) :
    s.runCommand = .next (s.respond (encResponse l (encQuad l d s.req.val))) := by
  have fits : ∀ short, s.encodeQuad l d short = s.respond (encResponse l (encQuad l d s.req.val)) := by
    intro short
    rw [encodeQuad_eq, if_neg (Nat.not_lt.mpr hcap)]
  rcases hi with hi | hi
  · rw [State.runCommand, hi]; exact congrArg Host.Outcome.next (fits .fatal)
  · rw [State.runCommand, hi]; exact congrArg Host.Outcome.next (fits .insufficient)

/-- Taking an encoding with capacity for `need` puts the bytes of the unit on its first `need` lanes (R28, R71). -/
theorem memRead_memApply_encResponse (m : Memory) {cap : Nat} (l : Layout) (d : Bool) (v : Four Word)
    (hcap : (encQuad l d v).need ≤ cap) (a : Nat) :
    memRead (memApply m cap (encResponse l (encQuad l d v)).out) a =
      if a < (encQuad l d v).need then
        some ((unitBytes l (encQuad l d v).ctrl (encQuad l d v).stored (encQuad l d v).lens).getD a 0#8)
      else memRead m a := by
  obtain ⟨-, -, hle⟩ := encQuad_need l d v
  obtain ⟨hdata, hwe⟩ := encResponse_lane l d v a
  rw [memRead_memApply, hdata, hwe]
  by_cases ha : a < (encQuad l d v).need
  · rw [if_pos ha, if_pos ⟨by simp only [laneCount]; omega, by omega, by simpa using ha⟩]
  · rw [if_neg ha, if_neg fun ⟨_, _, h⟩ => ha (by simpa using h)]

/-- A response held, with no request waiting and an input that only takes it: the step applies it to the buffer and ends
the transaction (R22, R28). -/
theorem step_takes_ready {s : State} {rest : List Input} (hi : s.phase = .resp) (hpend : s.pending = none)
    (henv : s.env = { Input.quiet with rspReady := true } :: rest) :
    ∃ t, step s = .next t ∧ t.phase = (if s.fault then .halt else .idle) ∧ t.fault = s.fault ∧ t.env = rest ∧
      t.ob = memApply s.ob s.req.outCap s.rsp.out := by
  have hin := input_cons henv
  have htakes : s.Takes :=
    ⟨hi, by rw [hin]; rfl, by simp [State.protocolError, hin, hpend, Input.quiet], by rw [hin]⟩
  have hob : s.readInput.ob = s.ob := by rw [readInput_ob, hin]; rfl
  exact ⟨_, step_takes htakes, rfl, rfl, by simp [henv], by rw [takeResponse_ob, hob]; rfl⟩

/-- Settles O52: the accepting step responds with the encoding, and the next step applies it to the buffer. -/
theorem encodeTransactionWritesUnit : Obligations.EncodeTransactionWritesUnit := by
  intro l d s r e x y rest ha hd he hcap henv hx hy
  subst he hy
  have haccept : step s = .next ((s.readInput.accept r).respond (encResponse l (encQuad l d r.val))) := by
    rw [step_accepts ha]
    exact runCommand_encodes (s := s.readInput.accept r) hd hcap
  have hbuf : s.readInput.ob = s.ob := by rw [readInput_ob, input_cons henv, hx]; rfl
  obtain ⟨t, htake, hphase, hfault, htenv, hob⟩ := step_takes_ready (rest := rest)
    (s := (s.readInput.accept r).respond (encResponse l (encQuad l d r.val))) rfl rfl (by simp [henv])
  have hclear : s.fault = false := ha.2.1
  refine ⟨t, ?_, by simpa [hclear] using hphase, hfault.trans hclear, htenv, fun a => ?_⟩
  · rw [run_cons haccept, run_cons htake]; rfl
  · rw [hob, respond_ob, accept_ob, hbuf]
    exact memRead_memApply_encResponse s.ob l d r.val hcap a

end Sys2Proof.Machine
end

section
/-!
PROOFS. The family of the memory: the lanes of each value's bytes, and the one step that writes the caller's buffer.
-/

namespace Sys2Proof.Machine

/-! ### The lanes of a value -/

/-- Byte `k` of value `i` stands at place `off[i] + k` of the unit (R33, R52, R57). -/
theorem unitBytes_getD_value (l : Layout) (c : Byte) (w : Four Word) (n : Four Nat) {i : Fin 4} {k : Nat}
    (hk : k < n.get i) : (unitBytes l c w n).getD (laneOffset l n i + k) 0#8 = beByte (w.get i) (n.get i) k := by
  have hbyte : (beBytes (w.get i) (n.get i)).getD k 0#8 = beByte (w.get i) (n.get i) k := by
    rw [beBytes_getD, if_pos hk]
  rw [← hbyte, ← unitBytes_slice l c w n i]
  simp [List.getD_eq_getElem?_getD, List.getElem?_drop, hk, laneOffset]

/-- Settles O20: the lanes hold the unit, in which each value's bytes begin at its offset. -/
theorem valueByteStandsAtItsLane : Obligations.ValueByteStandsAtItsLane := by
  intro l d v e he
  subst he
  obtain ⟨hneed, -, hle⟩ := encQuad_need l d v
  refine ⟨fun i k hk => ?_, rfl, rfl, ?_, ?_, ?_⟩
  · rw [(placeQuad_lane l _ _ _ (hneed ▸ hle) _).1]
    exact unitBytes_getD_value l _ _ _ hk
  all_goals simp only [hneed, laneOffset, Four.before, Four.total]; omega

/-! ### The step that writes the buffer -/

/-- Work leaves the caller's buffer alone. -/
theorem WorkCase.ob {s t : State} (h : WorkCase s t) : t.ob = s.ob := by
  rcases h with ⟨r, p, rfl⟩ | ⟨p, rfl⟩ <;> rfl

/-- A step that takes no response leaves in the buffer only the caller's own writes. -/
theorem step_ob_of_not_takes {s t : State} (h : step s = .next t) (hk : ¬ s.Takes) :
    t.ob = memWrites s.ob s.input.callerWrites := by
  cases step_cases h with
  | reset _ ht => rw [ht, resetStep_ob]
  | waits _ _ ht _ => rw [ht, readInput_ob]
  | accepts r _ ht => rw [(runCommand_work ht).ob, accept_ob, readInput_ob]
  | runs _ _ _ _ ht => rw [(runCommand_work ht).ob, readInput_ob]
  | answers _ _ _ p a _ _ ht => rw [ht, (takeAnswer_work s.readInput p a).ob, readInput_ob]
  | takes htakes _ => exact absurd htakes hk

/-- The step that takes the response applies its lanes to the buffer, after the caller's own writes (R28). -/
theorem step_ob_of_takes {s t : State} (h : step s = .next t) (hk : s.Takes) :
    t.ob = memApply (memWrites s.ob s.input.callerWrites) s.req.outCap s.rsp.out := by
  rw [step_takes hk] at h
  cases h
  rw [takeResponse_ob, readInput_ob, readInput_req, readInput_rsp]

/-- A response that a rule can give with a status other than OK enables no lane (R36). -/
theorem ResponseOk.out_clear {r : Response} (h : ResponseOk r) (hst : r.status ≠ .ok) : r.out = OutLanes.clear :=
  congrArg Response.out (h.nonOk hst)

/-- Settles O51: by whether the step takes the response, whose lanes are clear unless its status is OK. -/
theorem onlyTakingAnOkResponseWrites : Obligations.OnlyTakingAnOkResponseWrites := by
  refine fun s t h => ⟨step_ob_of_not_takes h, step_ob_of_takes h, fun hrsp hst a => ?_⟩
  by_cases hk : s.Takes
  · rw [step_ob_of_takes h hk, hrsp.1.out_clear hst, memApply_clear]
  · rw [step_ob_of_not_takes h hk]

end Sys2Proof.Machine
end

section
/-!
PROOFS. The family of the encodings: the six rows of the command word, that decoding and encoding are inverse on the
commands a core has, the table, the reserved words and the mnemonics; then the packer of the control byte.
-/

namespace Sys2Proof

/-! ### The rows and their match -/

/-- Mask, pattern and command of a row (R48). -/
abbrev Row := Byte × Byte × (Layout → Bool → Instr)

/-- The word matches the mask and pattern of the row (R48). -/
abbrev RowMatches (cmd : Byte) (r : Row) : Prop := cmd &&& r.1 = r.2.1

/-- The patterns of two rows differ on a bit that both masks ask for. -/
abbrev RowsDiffer (r t : Row) : Prop := r.2.1 &&& t.1 ≠ t.2.1 &&& r.1

/-- Rows that differ match no common word. -/
theorem not_rowMatches_of_differ {cmd : Byte} {r t : Row} (hdiffer : RowsDiffer r t) (hr : RowMatches cmd r) :
    ¬ RowMatches cmd t := by
  intro ht
  refine hdiffer ?_
  rw [← hr, ← ht, BitVec.and_assoc, BitVec.and_assoc, BitVec.and_comm r.1]

/-- Any two of the six rows differ (R48). -/
theorem rowPatterns_differ : rowPatterns.Pairwise RowsDiffer := by decide

/-- A word matches at most one row (R48). -/
theorem row_unique {cmd : Byte} {r t : Row} (hr : r ∈ rowPatterns) (ht : t ∈ rowPatterns) (hmr : RowMatches cmd r)
    (hmt : RowMatches cmd t) : r = t := by
  have hsymm : Std.Symm RowsDiffer := ⟨fun _ _ h => h.symm⟩
  by_contra hne
  exact not_rowMatches_of_differ (rowPatterns_differ.forall hr ht hne) hmr hmt

/-- `matchRow` takes the first row that matches and gives it the word's L and D. -/
theorem matchRow_eq_find (cmd : Byte) :
    matchRow cmd =
      (rowPatterns.find? fun r => cmd &&& r.1 == r.2.1).map fun r => r.2.2 (cmdLayout cmd) (cmdDiff cmd) := by
  simp only [matchRow, rowPatterns, List.find?_cons, List.find?_nil, Bool.beq_eq_decide_eq]
  split_ifs <;> simp only [*, BitVec.reduceEq, decide_true, decide_false, Option.map_some, Option.map_none]

/-- The command of a word that matches a row, whichever row is tested first (R48). -/
theorem matchRow_of_rowMatches {cmd : Byte} {r : Row} (hr : r ∈ rowPatterns) (hm : RowMatches cmd r) :
    matchRow cmd = some (r.2.2 (cmdLayout cmd) (cmdDiff cmd)) := by
  rw [matchRow_eq_find]
  cases hf : rowPatterns.find? fun r => cmd &&& r.1 == r.2.1 with
  | none => exact absurd hm (by simpa using List.find?_eq_none.mp hf r hr)
  | some t =>
    have htm : RowMatches cmd t := by simpa using List.find?_some hf
    rw [row_unique hr (List.mem_of_find?_eq_some hf) hm htm]
    rfl

/-- A word has a command only by a row that it matches. -/
theorem rowMatches_of_matchRow {cmd : Byte} {i : Instr} (h : matchRow cmd = some i) :
    ∃ r ∈ rowPatterns, RowMatches cmd r ∧ i = r.2.2 (cmdLayout cmd) (cmdDiff cmd) := by
  rw [matchRow_eq_find, Option.map_eq_some_iff] at h
  obtain ⟨r, hf, rfl⟩ := h
  exact ⟨r, List.mem_of_find?_eq_some hf, by simpa using List.find?_some hf, rfl⟩

/-- A word has no command exactly when it matches no row (R48). -/
theorem matchRow_eq_none_iff (cmd : Byte) : matchRow cmd = none ↔ ∀ r ∈ rowPatterns, ¬ RowMatches cmd r := by
  rw [matchRow_eq_find, Option.map_eq_none_iff, List.find?_eq_none]
  simp only [beq_iff_eq]

/-! ### The match and the encoding are inverse -/

/-- The bits L and D in their places (R45). -/
theorem modifierBits_eq_fields (l d : Bool) :
    modifierBits (if l then .inline else .split) d = 0#3 ++ BitVec.ofBool l ++ BitVec.ofBool d ++ 0#3 := by
  cases l <;> cases d <;> rfl

/-- The bits of a word that every row but LUT.RD's leaves free (R48). -/
theorem free_eq_fields (cmd : Byte) :
    cmd &&& 0x18#8 = 0#3 ++ BitVec.ofBool (cmd.getLsbD 4) ++ BitVec.ofBool (cmd.getLsbD 3) ++ 0#3 := by
  apply BitVec.eq_of_getLsbD_eq
  intro j hj
  repeat rw [BitVec.getLsbD_append]
  interval_cases j <;> simp

/-- A word is its bits under the mask of a row with L and D free, and those two bits. -/
theorem or_modifierBits_of_masked {cmd pattern : Byte} (h : cmd &&& 0xE7#8 = pattern) :
    pattern ||| modifierBits (cmdLayout cmd) (cmdDiff cmd) = cmd := by
  have hmasks : (0xE7#8 : Byte) ||| 0x18#8 = BitVec.allOnes 8 := rfl
  rw [← h, cmdLayout, cmdDiff, modifierBits_eq_fields, ← free_eq_fields, ← BitVec.and_or_distrib_left, hmasks,
    BitVec.and_allOnes]

/-- A row's command with the word's L and D is written as the word itself. -/
theorem encodeCmd_of_rowMatches {cmd : Byte} {r : Row} (hr : r ∈ rowPatterns) (hm : RowMatches cmd r) :
    encodeCmd (r.2.2 (cmdLayout cmd) (cmdDiff cmd)) = cmd := by
  simp only [rowPatterns, List.mem_cons, List.not_mem_nil, or_false] at hr
  rcases hr with rfl | rfl | rfl | rfl | rfl | rfl
  · exact hm.symm.trans BitVec.and_allOnes
  all_goals exact or_modifierBits_of_masked hm

/-- A command's word has the command. -/
theorem matchRow_encodeCmd (i : Instr) : matchRow (encodeCmd i) = some i := by
  cases i with
  | lutRd => rfl
  | encU l d | encC l d | decU l d | decC l d | decS l d => cases l <;> cases d <;> rfl

/-- A word has a command exactly when it is the command's encoding (R47, R48). -/
theorem matchRow_eq_some_iff {cmd : Byte} {i : Instr} : matchRow cmd = some i ↔ cmd = encodeCmd i := by
  constructor
  · intro h
    obtain ⟨r, hr, hm, rfl⟩ := rowMatches_of_matchRow h
    exact (encodeCmd_of_rowMatches hr hm).symm
  · rintro rfl
    exact matchRow_encodeCmd i

/-- The word of a command has the shape stated for it (R45, R47). -/
theorem commandShape (i : Instr) : Laws.CommandShape.Statement i := by
  cases i with
  | lutRd => exact Laws.CommandShape.lutRd
  | encU l d => exact Laws.CommandShape.encU l d
  | encC l d => exact Laws.CommandShape.encC l d
  | decU l d => exact Laws.CommandShape.decU l d
  | decC l d => exact Laws.CommandShape.decC l d
  | decS l d => exact Laws.CommandShape.decS l d

/-- The D of a word's command is the word's (R45). -/
theorem diff_of_matchRow {cmd : Byte} {i : Instr} (h : matchRow cmd = some i) : i.diff = cmdDiff cmd := by
  obtain ⟨-, hdiff, -, -⟩ := commandShape i
  rw [matchRow_eq_some_iff.mp h, hdiff]

/-! ### The decoder -/

/-- A core has every command but, without a delta wrapper, those with D = 1 (R47, R99). -/
theorem wf_iff {p : Params} {i : Instr} : i.wf p = true ↔ (i.diff = true → p.hasDelta = true) := by
  cases hd : i.diff <;> simp [Instr.wf, hd]

/-- What the decoder reads as a command: exactly the encodings of the commands the core has (R47). -/
theorem decode_eq_instr_iff {p : Params} {cmd : Byte} {i : Instr} :
    decode p cmd = .instr i ↔ cmd = encodeCmd i ∧ i.wf p = true := by
  rw [← matchRow_eq_some_iff, decode]
  cases matchRow cmd with
  | none => simp
  | some j =>
    by_cases hj : j.wf p = true
    · simp only [hj, if_true, Decoded.instr.injEq, Option.some.injEq]
      exact ⟨fun h => ⟨h, h ▸ hj⟩, And.left⟩
    · simp only [hj]
      refine ⟨nofun, fun ⟨hji, hi⟩ => ?_⟩
      cases hji
      exact absurd hi hj

/-- Decoding the word of a command the core has gives the command. -/
theorem decode_encodeCmd {p : Params} {i : Instr} (h : i.wf p = true) : decode p (encodeCmd i) = .instr i :=
  decode_eq_instr_iff.mpr ⟨rfl, h⟩

/-- What the decoder rejects: the words of no row, and D = 1 without a delta wrapper (R48). -/
theorem decode_reserved_iff (p : Params) (cmd : Byte) :
    (∃ why, decode p cmd = .reserved why) ↔ matchRow cmd = none ∨ (cmdDiff cmd = true ∧ p.hasDelta = false) := by
  rw [decode]
  cases hm : matchRow cmd with
  | none => simp
  | some i =>
    rw [← diff_of_matchRow hm]
    cases hd : i.diff <;> cases hp : p.hasDelta <;> simp [Instr.wf, hd, hp]

/-- The command in a list of bytes is read from the first byte, and the others are left (R45, R46). -/
theorem decodeBytes_cons_eq_some_iff {p : Params} {cmd : Byte} {tail rest : List Byte} {i : Instr} :
    decodeBytes p (cmd :: tail) = some (i, rest) ↔ decode p cmd = .instr i ∧ tail = rest := by
  rw [decodeBytes]
  cases decode p cmd <;> simp

/-- What a list of bytes decodes to: a command the core has, and the bytes that follow its encoding. -/
theorem decodeBytes_eq_some_iff {p : Params} {bytes rest : List Byte} {i : Instr} :
    decodeBytes p bytes = some (i, rest) ↔ i.wf p = true ∧ bytes = encode i ++ rest := by
  cases bytes with
  | nil => simp [decodeBytes, encode]
  | cons cmd tail =>
    rw [decodeBytes_cons_eq_some_iff, decode_eq_instr_iff, encode, List.singleton_append, List.cons.injEq]
    tauto

/-- Settles O2: the two directions of `decodeBytes_eq_some_iff`. -/
theorem decodeAndEncodeAgree : Obligations.DecodeAndEncodeAgree :=
  fun _ _ _ _ => ⟨fun h => decodeBytes_eq_some_iff.mpr ⟨h, rfl⟩, decodeBytes_eq_some_iff.mp⟩

/-- Settles O1: six words by the round trip of their commands, the seventh by its case of R58. -/
theorem commandWordsDecodeToTheirRows : Obligations.CommandWordsDecodeToTheirRows :=
  ⟨decode_encodeCmd (i := .lutRd) rfl, decode_encodeCmd (i := .encU .inline true) rfl,
    decode_encodeCmd (i := .encC .split false) rfl, decode_encodeCmd (i := .decU .inline false) rfl,
    decode_encodeCmd (i := .decC .split true) rfl, decode_encodeCmd (i := .decS .inline true) rfl, rfl⟩

/-- At most one row is left when the six are filtered by a word (R48). -/
theorem filter_rowMatches_length (cmd : Byte) :
    (rowPatterns.filter fun r => cmd &&& r.1 == r.2.1).length ≤ 1 := by
  have hdiffer := rowPatterns_differ.filter fun r => cmd &&& r.1 == r.2.1
  have hmatch : ∀ r ∈ rowPatterns.filter (fun r => cmd &&& r.1 == r.2.1), RowMatches cmd r := fun r hr => by
    simpa using List.of_mem_filter hr
  rcases hl : rowPatterns.filter fun r => cmd &&& r.1 == r.2.1 with _ | ⟨r, _ | ⟨t, rows⟩⟩
  · rw [hl]; exact Nat.zero_le 1
  · rw [hl]; exact Nat.le_refl 1
  · rw [hl] at hdiffer hmatch
    have hrt : RowsDiffer r t := List.rel_of_pairwise_cons hdiffer (by simp)
    exact absurd (hmatch t (by simp)) (not_rowMatches_of_differ hrt (hmatch r (by simp)))

/-- Settles O4: the rows differ pairwise, so the row that matches is the one `matchRow` finds. -/
theorem rowPatternsNeverOverlap : Obligations.RowPatternsNeverOverlap := by
  refine fun cmd => ⟨filter_rowMatches_length cmd, fun p => ⟨fun r hr hm hdelta => ?_, ?_⟩⟩
  · have hrow := matchRow_of_rowMatches hr hm
    exact decode_eq_instr_iff.mpr
      ⟨matchRow_eq_some_iff.mp hrow, wf_iff.mpr fun hd => hdelta ((diff_of_matchRow hrow).symm.trans hd)⟩
  · rw [decode_reserved_iff, matchRow_eq_none_iff]
    rfl

/-! ### The table of the commands -/

/-- The table of R47 holds each command beside its word, and nothing else. -/
theorem mem_commandTable_iff {cmd : Byte} {i : Instr} : (cmd, i) ∈ commandTable ↔ cmd = encodeCmd i := by
  constructor
  · have hrows : ∀ r ∈ commandTable, r.1 = encodeCmd r.2 := by decide
    exact hrows (cmd, i)
  · rintro rfl
    cases i with
    | lutRd => decide
    | encU l d | encC l d | decU l d | decC l d | decS l d => cases l <;> cases d <;> decide

/-- Settles O3: a word decodes to the commands it encodes, and the table is the list of those pairs. -/
theorem legalCommandsAreTheTable : Obligations.LegalCommandsAreTheTable :=
  ⟨rfl, rfl, fun _ _ _ => by rw [decode_eq_instr_iff, mem_commandTable_iff, wf_iff]⟩

/-- No two rows of the table have the same text (R62). -/
theorem commandTable_texts_nodup : (commandTable.map fun r => Machine.instrText r.2).Nodup := by decide

/-- Settles O7: the two commands stand in the table beside their words, in rows of the same text. -/
theorem mnemonicsNameOneWord : Obligations.MnemonicsNameOneWord := by
  intro i j htext
  have hrow : (encodeCmd i, i) = (encodeCmd j, j) :=
    List.inj_on_of_nodup_map commandTable_texts_nodup (mem_commandTable_iff.mpr rfl) (mem_commandTable_iff.mpr rfl)
      htext
  exact Prod.mk.inj hrow

/-- The command word of a line's request is that of the line's command (R61). -/
theorem lineRequest_cmd (x : Machine.Line) : (Machine.lineRequest x).cmd = encodeCmd (Machine.lineInstr x) := by
  cases x <;> rfl

/-- Settles O8: the word is the encoding of a command that the core has. -/
theorem lineRequestDecodesToItsCommand : Obligations.LineRequestDecodesToItsCommand := by
  intro p x h
  rw [lineRequest_cmd]
  exact decode_encodeCmd h

/-! ### The reserved words and the status codes -/

/-- The bits that a row with L and D free asks for: U, R, C and S (R45, R48). -/
theorem masked_eq_fields (cmd : Byte) :
    cmd &&& 0xE7#8 =
      cmdUnit cmd ++ BitVec.ofBool (cmdReserved cmd) ++ 0#2 ++ BitVec.ofBool (cmdChecked cmd) ++ cmdSource cmd := by
  apply BitVec.eq_of_getLsbD_eq
  intro j hj
  simp only [cmdUnit, cmdReserved, cmdChecked, cmdSource]
  repeat rw [BitVec.getLsbD_append]
  interval_cases j <;> simp

/-- The values of U, R, C and S that are in none of the five rows with L and D free (R47, R58). -/
theorem fields_of_no_row : ∀ (u s : BitVec 2) (r c : Bool),
    u ++ BitVec.ofBool r ++ 0#2 ++ BitVec.ofBool c ++ s ∉ [0x40#8, 0x44#8, 0x80#8, 0x84#8, 0x85#8] ↔
      (u = 0b11#2 ∨ r = true ∨ u = 0b00#2 ∨ (u = 0b01#2 ∧ s ≠ 0b00#2) ∨
       (u = 0b10#2 ∧ (s = 0b10#2 ∨ s = 0b11#2)) ∨ (u = 0b10#2 ∧ s = 0b01#2 ∧ c = false)) := by
  decide

/-- The words of no row, by their fields: the cases of R58 but for the one of the delta wrapper. -/
theorem matchRow_eq_none_iff_fields (cmd : Byte) :
    matchRow cmd = none ↔
      (cmdUnit cmd = 0b11#2 ∨ cmdReserved cmd = true ∨ (cmdUnit cmd = 0b00#2 ∧ cmd ≠ 0#8) ∨
       (cmdUnit cmd = 0b01#2 ∧ cmdSource cmd ≠ 0b00#2) ∨
       (cmdUnit cmd = 0b10#2 ∧ (cmdSource cmd = 0b10#2 ∨ cmdSource cmd = 0b11#2)) ∨
       (cmdUnit cmd = 0b10#2 ∧ cmdSource cmd = 0b01#2 ∧ cmdChecked cmd = false)) := by
  by_cases hz : cmd = 0#8
  · subst hz
    decide
  · have hlut : cmd &&& 0xFF#8 ≠ 0x00#8 := fun h => hz (BitVec.and_allOnes.symm.trans h)
    rw [and_iff_left hz, ← fields_of_no_row, ← masked_eq_fields, matchRow_eq_none_iff]
    simp [rowPatterns, hlut]

/-- Settles O5: a word is of no row, which its fields say, or lacks the delta wrapper. -/
theorem reservedWordsAreTheCases : Obligations.ReservedWordsAreTheCases := by
  intro p cmd
  rw [decode_reserved_iff, matchRow_eq_none_iff_fields]
  simp only [or_assoc]

/-- Settles O6: by the five statuses. -/
theorem statusCodesAreTabled : Obligations.StatusCodesAreTabled :=
  ⟨rfl, rfl, rfl, rfl, rfl, fun st => by cases st <;> decide⟩

end Sys2Proof

namespace Sys2Proof.Machine

/-! ### The packer of the control byte -/

/-- A length less one, as the two bits of its field (R49). -/
def lenField (m : Nat) : BitVec 2 := BitVec.ofNat 2 (m - 1)

/-- The field of a length holds the length less one, of which nothing is cut. -/
theorem lenField_toNat {m : Nat} (h : 1 ≤ m ∧ m ≤ 4) : (lenField m).toNat = m - 1 := by
  rw [lenField, BitVec.toNat_ofNat]
  omega

/-- What the packer ORs in is the field of the length. -/
theorem ofNat_eq_lenField {m : Nat} (h : 1 ≤ m ∧ m ≤ 4) : BitVec.ofNat 8 (m - 1) = (lenField m).setWidth 8 := by
  apply BitVec.eq_of_toNat_eq
  rw [BitVec.toNat_setWidth, lenField_toNat h, BitVec.toNat_ofNat]

/-- Each turn of the packer moves the values before it two bits to the left (R51, R69). -/
theorem packCtrl_eq_or (n : Four Nat) :
    packCtrl n = (BitVec.ofNat 8 (n.x0 - 1) <<< 6) ||| (BitVec.ofNat 8 (n.x1 - 1) <<< 4) |||
      (BitVec.ofNat 8 (n.x2 - 1) <<< 2) ||| BitVec.ofNat 8 (n.x3 - 1) := by
  simp [packCtrl, packStep, BitVec.shiftLeft_or_distrib, ← BitVec.shiftLeft_add]

/-- Four fields ORed in their places are their concatenation (R51). -/
theorem or_fields_eq_append (a b c d : BitVec 2) :
    (a.setWidth 8 <<< 6) ||| (b.setWidth 8 <<< 4) ||| (c.setWidth 8 <<< 2) ||| d.setWidth 8 = a ++ b ++ c ++ d := by
  apply BitVec.eq_of_getLsbD_eq
  intro j hj
  repeat rw [BitVec.getLsbD_append]
  interval_cases j <;> simp

/-- Field `i` of four fields put together is the `i`-th (R49). -/
theorem ctrlField_append (a b c d : BitVec 2) (i : Fin 4) :
    ctrlField (a ++ b ++ c ++ d) i = (Four.mk a b c d).get i := by
  match i with
  | 0 | 1 | 2 | 3 =>
    apply BitVec.eq_of_getLsbD_eq
    intro j hj
    simp only [ctrlField, BitVec.getLsbD_extractLsb', hj, decide_true, Bool.true_and, Four.get]
    repeat rw [BitVec.getLsbD_append]
    interval_cases j <;> rfl

/-- The packer puts the fields of the lengths side by side, value 0 leftmost (R51). -/
theorem packCtrl_eq_append {n : Four Nat} (hn : ∀ i, 1 ≤ n.get i ∧ n.get i ≤ 4) :
    packCtrl n = lenField n.x0 ++ lenField n.x1 ++ lenField n.x2 ++ lenField n.x3 := by
  rw [packCtrl_eq_or, ofNat_eq_lenField (m := n.x0) (hn 0), ofNat_eq_lenField (m := n.x1) (hn 1),
    ofNat_eq_lenField (m := n.x2) (hn 2), ofNat_eq_lenField (m := n.x3) (hn 3), or_fields_eq_append]

/-- Field `i` of the packed control byte is that of length `i` (R49, R69). -/
theorem ctrlField_packCtrl {n : Four Nat} (hn : ∀ i, 1 ≤ n.get i ∧ n.get i ≤ 4) (i : Fin 4) :
    ctrlField (packCtrl n) i = lenField (n.get i) := by
  rw [packCtrl_eq_append hn, ctrlField_append]
  exact map_get lenField n i

/-- The lengths read back from the packed control byte are those packed (R50, R69). -/
theorem ctrlLens_packCtrl {n : Four Nat} (hn : ∀ i, 1 ≤ n.get i ∧ n.get i ≤ 4) : ctrlLens (packCtrl n) = n := by
  apply four_ext
  intro i
  have hi := hn i
  rw [ctrlLens_get, ctrlLen_toNat, ctrlField_packCtrl hn, lenField_toNat hi]
  omega

/-- Settles O18: the packer's turns as shifts, and as the concatenation that `ctrlLens` reads back. -/
theorem packedControlByteHoldsLengths : Obligations.PackedControlByteHoldsLengths :=
  fun n hn => ⟨packCtrl_eq_append hn, packCtrl_eq_or n, ctrlLens_packCtrl hn⟩

end Sys2Proof.Machine
end

section
/-!
PROOFS. The family of LUT.RD: the arithmetic of an address's fields, the ROM word as five bytes and as a response, the
invariants of the table.
-/

namespace Sys2Proof.Machine

/-! ### The ROM word -/

/-- Two bit vectors put together hold the left one's value times the place of the right one's end (R11). -/
theorem append_toNat_eq_add {m n : Nat} (x : BitVec m) (y : BitVec n) :
    (x ++ y).toNat = x.toNat * 2 ^ n + y.toNat := by
  rw [BitVec.toNat_append, ← Nat.shiftLeft_add_eq_or_of_lt y.isLt, Nat.shiftLeft_eq]

/-- The sum byte of an address holds the sum of its lengths, of which nothing is cut (R64). -/
theorem ctrlSum_toNat (c : Byte) : (ctrlSum c).toNat = (ctrlLens c).total := by
  rw [← romSum_contents, romSum, romRead_contents, wordSum_lutWord]

/-- The ROM word of an address as a number: its lengths and their sum, a byte each (R56, R64). -/
theorem lutWord_toNat (c : Byte) :
    (lutWord c).toNat =
      (ctrlLens c).x0 * 2 ^ 32 + (ctrlLens c).x1 * 2 ^ 24 + (ctrlLens c).x2 * 2 ^ 16 + (ctrlLens c).x3 * 2 ^ 8 +
        (ctrlLens c).total := by
  have h0 : (ctrlLens c).x0 = (ctrlLen c 0).toNat := ctrlLens_get c 0
  have h1 : (ctrlLens c).x1 = (ctrlLen c 1).toNat := ctrlLens_get c 1
  have h2 : (ctrlLens c).x2 = (ctrlLen c 2).toNat := ctrlLens_get c 2
  have h3 : (ctrlLens c).x3 = (ctrlLen c 3).toNat := ctrlLens_get c 3
  rw [lutWord]
  simp only [append_toNat_eq_add, ctrlSum_toNat, h0, h1, h2, h3]
  omega

/-- Settles O14: the two fields of the word by their laws, the whole word by `lutWord_toNat`. -/
theorem romContentsFollowFormula : Obligations.RomContentsFollowFormula := by
  intro c
  rw [romRead_contents]
  refine ⟨fun i => ?_, ?_, lutWord_toNat c⟩
  · rw [wordLen_lutWord, ctrlLens_get]
  · rw [wordSum_lutWord, ctrlSum_toNat]

/-! ### The response of LUT.RD -/

/-- What LUT.RD answers to the word of an address: the lengths and the sum of the address (R63, R64). -/
theorem lutResponse_lutWord (c : Byte) :
    lutResponse (lutWord c) = { Response.zero with
      status := .ok
      lenOut := (ctrlLens c).map (BitVec.ofNat 8)
      sumOut := BitVec.ofNat 8 (ctrlLens c).total } := by
  have hlens : Four.ofFn (wordLen (lutWord c)) = (ctrlLens c).map (BitVec.ofNat 8) := by
    apply four_ext
    intro i
    rw [ofFn_get, map_get, wordLen_lutWord, ctrlLens_get, BitVec.ofNat_toNat, BitVec.setWidth_eq]
  have hsum : wordSum (lutWord c) = BitVec.ofNat 8 (ctrlLens c).total := by
    rw [wordSum_lutWord, ← ctrlSum_toNat, BitVec.ofNat_toNat, BitVec.setWidth_eq]
  rw [lutResponse, hlens, hsum]

/-- Settles O13: LUT.RD completes with the response to the word that the ROM holds at `ctrl_in`, and does no more. -/
theorem lutReadReturnsEntry : Obligations.LutReadReturnsEntry := by
  refine ⟨rfl, fun s hrom => ?_⟩
  have hexec : exec .lutRd s =
      .next { s with phase := .resp, rsp := lutResponse (romRead s.rom s.req.ctrlIn) } := rfl
  have hword : romRead s.rom s.req.ctrlIn = lutWord s.req.ctrlIn := by rw [hrom, romRead_contents]
  rw [hexec, hword, lutResponse_lutWord]

/-! ### The invariants of the table -/

/-- A length is the value of its own field plus one (R50, R65). -/
theorem ctrlLens_get_eq_field (c : Byte) (i : Fin 4) : (ctrlLens c).get i = (ctrlField c i).toNat + 1 := by
  rw [ctrlLens_get, ctrlLen_toNat]

/-- The sum of an address is the sum of its four fields plus 4 (R65). -/
theorem romSum_eq_fields (c : Byte) :
    romSum romContents c =
      (ctrlField c 0).toNat + (ctrlField c 1).toNat + (ctrlField c 2).toNat + (ctrlField c 3).toNat + 4 := by
  have htotal : (ctrlLens c).total =
      (ctrlLens c).get 0 + (ctrlLens c).get 1 + (ctrlLens c).get 2 + (ctrlLens c).get 3 := rfl
  rw [romSum_contents, htotal]
  simp only [ctrlLens_get_eq_field]
  omega

/-- The least sum, 4, is that of 0x00 alone: its fields are all 0 (R65). -/
theorem romSum_eq_four_iff (c : Byte) : romSum romContents c = 4 ↔ c = 0x00#8 := by
  constructor
  · intro hsum
    rw [romSum_eq_fields] at hsum
    have hzero : (ctrlField c 0).toNat = 0 ∧ (ctrlField c 1).toNat = 0 ∧ (ctrlField c 2).toNat = 0 ∧
        (ctrlField c 3).toNat = 0 := by omega
    obtain ⟨h0, h1, h2, h3⟩ := hzero
    rw [← byte_of_fields c, h0, h1, h2, h3]
  · rintro rfl
    decide

/-- The greatest sum, 16, is that of 0xFF alone: its fields are all 3 (R65). -/
theorem romSum_eq_sixteen_iff (c : Byte) : romSum romContents c = 16 ↔ c = 0xFF#8 := by
  constructor
  · intro hsum
    rw [romSum_eq_fields] at hsum
    have hthree : (ctrlField c 0).toNat = 3 ∧ (ctrlField c 1).toNat = 3 ∧ (ctrlField c 2).toNat = 3 ∧
        (ctrlField c 3).toNat = 3 := by omega
    obtain ⟨h0, h1, h2, h3⟩ := hthree
    rw [← byte_of_fields c, h0, h1, h2, h3]
  · rintro rfl
    decide

/-- Field `i` of a control byte as a number (R49). -/
theorem ctrlField_toNat (c : Byte) (i : Fin 4) : (ctrlField c i).toNat = c.toNat / 2 ^ (6 - 2 * i.val) % 4 := by
  rw [ctrlField, BitVec.extractLsb'_toNat, Nat.shiftRight_eq_div_pow]

/-- The sum at address number `a`, by the fields of the number (R49, R65). -/
theorem romSum_ofNat {a : Nat} (ha : a < 256) :
    romSum romContents (BitVec.ofNat 8 a) = a / 64 + a / 16 % 4 + a / 4 % 4 + a % 4 + 4 := by
  have haddr : (BitVec.ofNat 8 a).toNat = a := (BitVec.toNat_ofNat a 8).trans (Nat.mod_eq_of_lt ha)
  have h0 : a / 64 % 4 = a / 64 := by omega
  simp [romSum_eq_fields, ctrlField_toNat, haddr, h0]

/-- The addresses of sum `k + 4` are those whose fields add to `k` (R65). -/
theorem filter_romSum_eq (k : Nat) :
    ((List.range 256).filter fun a => romSum romContents (BitVec.ofNat 8 a) == k + 4) =
      (List.range 256).filter fun a => a / 64 + a / 16 % 4 + a / 4 % 4 + a % 4 == k := by
  apply List.filter_congr
  intro a ha
  rw [romSum_ofNat (List.mem_range.mp ha), Bool.eq_iff_iff, beq_iff_eq, beq_iff_eq, Nat.add_right_cancel_iff]

/-- Settles O15: the lengths and sums by the fields; the addresses counted for a sum are the same on both sides. -/
theorem romTableTotality : Obligations.RomTableTotality := by
  refine ⟨fun c i => ?_, fun c c' i h => ?_, fun c => ?_, romSum_eq_four_iff, romSum_eq_sixteen_iff, fun k => ?_⟩
  · rw [romLens_contents]
    exact ctrlLens_bounds c i
  · rw [romLens_contents, romLens_contents, ctrlLens_get_eq_field, ctrlLens_get_eq_field, h]
  · rw [romSum_contents, romLens_contents]
    exact ⟨rfl, ctrlLens_total_bounds c⟩
  · rw [filter_romSum_eq]

end Sys2Proof.Machine
end

section
/-!
PROOFS. The family of the encoder: the least length that holds a value, the lengths in the control byte, the lanes of the
unit, the answers of ENC.U and ENC.C, and what each part of an encoding depends on.
-/

namespace Sys2Proof.Machine

/-! ### The length of a value -/

/-- No fewer bytes hold a value than `blen` gives it: below each threshold that the value reaches, none do (R68). -/
theorem blen_le_of_lt_pow {x : Word} {n : Nat} (hn : 1 ≤ n) (h : x.toNat < 2 ^ (8 * n)) : blen x ≤ n := by
  have hmore : ∀ k, ¬ x.toNat < 2 ^ (8 * k) → k < n := fun k hk => by
    by_contra hle
    exact hk (h.trans_le (Nat.pow_le_pow_right Nat.two_pos (by omega)))
  unfold blen
  split
  · exact hn
  · split
    · exact hmore 1 (by assumption)
    · split
      · exact hmore 2 (by assumption)
      · exact hmore 3 (by assumption)

/-- The byte of a value at bit `k`, where nothing stands above it, is 0 exactly when the value ends below bit `k`. -/
theorem topByte_eq_zero_iff {x : Word} {k : Nat} (h : x.toNat < 2 ^ (k + 8)) :
    x.extractLsb' k 8 = 0#8 ↔ x.toNat < 2 ^ k := by
  have hquot : x.toNat / 2 ^ k < 2 ^ 8 := Nat.div_lt_of_lt_mul (by rwa [← Nat.pow_add])
  rw [← BitVec.toNat_inj, BitVec.extractLsb'_toNat, Nat.shiftRight_eq_div_pow, Nat.mod_eq_of_lt hquot, BitVec.toNat_ofNat,
    Nat.zero_mod, Nat.div_eq_zero_iff]
  simp

/-- The length of a value by the highest of its bytes that is not zero (R68). -/
theorem blen_eq_of_upper_bytes (x : Word) :
    blen x = (if x.extractLsb' 24 8 ≠ 0#8 then 4 else if x.extractLsb' 16 8 ≠ 0#8 then 3
      else if x.extractLsb' 8 8 ≠ 0#8 then 2 else 1) := by
  have h24 : x.extractLsb' 24 8 = 0#8 ↔ x.toNat < 2 ^ 24 := topByte_eq_zero_iff x.isLt
  by_cases hx24 : x.toNat < 2 ^ 24
  · have h16 : x.extractLsb' 16 8 = 0#8 ↔ x.toNat < 2 ^ 16 := topByte_eq_zero_iff hx24
    by_cases hx16 : x.toNat < 2 ^ 16
    · have h8 : x.extractLsb' 8 8 = 0#8 ↔ x.toNat < 2 ^ 8 := topByte_eq_zero_iff hx16
      by_cases hx8 : x.toNat < 2 ^ 8
      · simp only [blen, h24, h16, h8, hx24, hx16, hx8, ne_eq, not_true, if_true, if_false]
      · simp only [blen, h24, h16, h8, hx24, hx16, hx8, ne_eq, not_true, not_false_eq_true, if_true, if_false]
    · have hx8 : ¬ x.toNat < 2 ^ 8 := by omega
      simp only [blen, h24, h16, hx24, hx16, hx8, ne_eq, not_true, not_false_eq_true, if_true, if_false]
  · have hx16 : ¬ x.toNat < 2 ^ 16 := by omega
    have hx8 : ¬ x.toNat < 2 ^ 8 := by omega
    simp only [blen, h24, hx24, hx16, hx8, ne_eq, not_false_eq_true, if_true, if_false]

/-- Settles O17: a value fits the bytes that `blen` gives it and no fewer; the thresholds are its definition. -/
theorem blenIsLeastByteCount : Obligations.BlenIsLeastByteCount := fun x =>
  ⟨(blen_bounds x).1, (blen_bounds x).2, lt_pow_blen x,
    fun _ => blen_le_of_lt_pow, rfl, blen_eq_of_upper_bytes x⟩

/-! ### The lengths in the control byte -/

/-- Each length of an encoding is that of its stored value (R72). -/
theorem encQuad_lens_get (l : Layout) (d : Bool) (v : Four Word) (i : Fin 4) :
    (encQuad l d v).lens.get i = blen ((storedQuad d v).get i) :=
  map_get blen (storedQuad d v) i

/-- The lengths of an encoding are in the range of the packer (R68, R69). -/
theorem encQuad_lens_bounds (l : Layout) (d : Bool) (v : Four Word) (i : Fin 4) :
    1 ≤ (encQuad l d v).lens.get i ∧ (encQuad l d v).lens.get i ≤ 4 := by
  rw [encQuad_lens_get]
  exact blen_bounds _

/-- The lengths that the control byte of an encoding holds are the encoding's (R50, R69). -/
theorem ctrlLens_encQuad (l : Layout) (d : Bool) (v : Four Word) :
    ctrlLens (encQuad l d v).ctrl = (encQuad l d v).lens :=
  ctrlLens_packCtrl (encQuad_lens_bounds l d v)

/-- `need` of an encoding is that of its control byte (R57, R72). -/
theorem quadNeed_encQuad (l : Layout) (d : Bool) (v : Four Word) :
    quadNeed l (encQuad l d v).ctrl = (encQuad l d v).need := by
  rw [quadNeed, ctrlLens_encQuad]
  rfl

/-- Settles O22: the table gives a control byte its own lengths, which are the encoder's. -/
theorem encoderAgreesWithTable : Obligations.EncoderAgreesWithTable := by
  rintro l d v e rfl
  rw [romLens_contents, romNeed_contents]
  exact ⟨ctrlLens_encQuad l d v, quadNeed_encQuad l d v⟩

/-- Settles O21: the lengths of a control byte add to 4 at least and 16 at most, and the layout adds its size. -/
theorem encoderNeedRange : Obligations.EncoderNeedRange := by
  have hrange : ∀ l d v, 4 + l.size ≤ (encQuad l d v).need ∧ (encQuad l d v).need ≤ 16 + l.size := by
    intro l d v
    have htotal := ctrlLens_total_bounds (encQuad l d v).ctrl
    rw [← quadNeed_encQuad, quadNeed]
    omega
  exact fun d v => ⟨hrange .split d v, hrange .inline d v⟩

/-! ### The lanes of the unit -/

/-- Each of the seventeen lanes of an encoder's response is enabled below `need` and holds its byte of the unit (R71). -/
theorem encResponse_lane_fin (l : Layout) (d : Bool) (v : Four Word) (j : Fin laneCount) :
    (encResponse l (encQuad l d v)).out.we[j] = decide (j.val < (encQuad l d v).need) ∧
    (encResponse l (encQuad l d v)).out.data[j] =
      (unitBytes l (encQuad l d v).ctrl (encQuad l d v).stored (encQuad l d v).lens).getD j.val 0#8 := by
  obtain ⟨hbyte, hwe⟩ := encResponse_lane l d v j
  rw [laneRead_eq _ _ j.isLt] at hbyte
  exact ⟨by simpa using hwe, hbyte⟩

/-- Settles O19: the unit is as long as `need`, and the lanes of the encoder's response hold it. -/
theorem encoderLanesHoldTheUnit : Obligations.EncoderLanesHoldTheUnit := by
  rintro l d v e rfl
  refine ⟨?_, encResponse_lane_fin l d v⟩
  rw [unitBytes_length]
  exact (encQuad_need l d v).1.symm

/-! ### The answers of ENC.U and ENC.C -/

/-- `nbytes` of an encoder's response is `need`, of which five bits cut nothing (R17, R75, R76). -/
theorem encResponse_nbytes_toNat (l : Layout) (d : Bool) (v : Four Word) :
    (encResponse l (encQuad l d v)).nbytes.toNat = (encQuad l d v).need := by
  obtain ⟨-, -, hle⟩ := encQuad_need l d v
  exact (BitVec.toNat_ofNat _ 5).trans (Nat.mod_eq_of_lt (by omega))

/-- The response of an encoder that succeeds is the one stated (R75, R76). -/
theorem encodedResponse_encResponse (l : Layout) (d : Bool) (v : Four Word) :
    EncodedResponse l (encQuad l d v) (encResponse l (encQuad l d v)) :=
  ⟨rfl, rfl, encResponse_nbytes_toNat l d v, encResponse_lane_fin l d v, rfl, rfl, rfl, rfl⟩

/-- With capacity for `need` an encoder responds (R75, R76). -/
theorem encodeQuad_of_fits {s : State} {l : Layout} {d : Bool} (short : Raise)
    (h : (encQuad l d s.req.val).need ≤ s.req.outCap) :
    s.encodeQuad l d short = { s with phase := .resp, rsp := encResponse l (encQuad l d s.req.val) } := by
  rw [encodeQuad_eq, if_neg (Nat.not_lt.mpr h)]
  rfl

/-- With less capacity than `need` an encoder raises (R75, R76). -/
theorem encodeQuad_of_short {s : State} {l : Layout} {d : Bool} (short : Raise)
    (h : s.req.outCap < (encQuad l d s.req.val).need) : s.encodeQuad l d short = s.raise short := by
  rw [encodeQuad_eq, if_pos h]

/-- Raising FATAL sets FAULT (R106, R108). -/
theorem raise_fatal (s : State) :
    s.raise .fatal = { s with fault := true, phase := .resp, rsp := bareResponse .fatal } := by
  rw [raise_eq, raiseFaults, Bool.or_true]
  rfl

/-- ENC.U encodes, and raises FATAL for a capacity below `need` (R75). -/
theorem exec_encU (l : Layout) (d : Bool) (s : State) : exec (.encU l d) s = .next (s.encodeQuad l d .fatal) := rfl

/-- ENC.C encodes, and raises INSUFFICIENT for a capacity below `need` (R76). -/
theorem exec_encC (l : Layout) (d : Bool) (s : State) :
    exec (.encC l d) s = .next (s.encodeQuad l d .insufficient) := rfl

/-- Settles O23: the two cases of the capacity check, with FATAL below it. -/
theorem encUncheckedResult : Obligations.EncUncheckedResult := by
  rintro l d s e rfl
  rw [exec_encU]
  refine ⟨by cases l <;> cases d <;> rfl, fun hfits => ?_, fun hshort => ?_⟩
  · exact ⟨_, by rw [encodeQuad_of_fits _ hfits], encodedResponse_encResponse l d s.req.val⟩
  · rw [encodeQuad_of_short _ hshort, raise_fatal]

/-- Settles O24: the two cases of the capacity check, with INSUFFICIENT below it. -/
theorem encCheckedResult : Obligations.EncCheckedResult := by
  rintro l d s e rfl
  rw [exec_encC]
  refine ⟨by cases l <;> cases d <;> rfl, fun hfits => ?_, fun hshort => ?_⟩
  · exact ⟨_, by rw [encodeQuad_of_fits _ hfits], encodedResponse_encResponse l d s.req.val⟩
  · rw [encodeQuad_of_short _ hshort, raise_insufficient]

/-- No raised outcome has the status OK (R104 to R107). -/
theorem raiseStatus_ne_ok (x : Raise) : raiseStatus x ≠ .ok := by
  cases x <;> simp [raiseStatus]

/-- An encoder that answers OK answers with the control byte of its encoding (R75, R76). -/
theorem encodeQuad_ctrlOut_of_ok {s : State} {l : Layout} {d : Bool} {short : Raise}
    (h : (s.encodeQuad l d short).rsp.status = .ok) :
    (s.encodeQuad l d short).rsp.ctrlOut = (encQuad l d s.req.val).ctrl := by
  rcases Nat.lt_or_ge s.req.outCap (encQuad l d s.req.val).need with hshort | hfits
  · rw [encodeQuad_of_short short hshort] at h
    exact absurd h (raiseStatus_ne_ok short)
  · rw [encodeQuad_of_fits short hfits]
    rfl

/-- Settles O25: the control byte answered is the encoding's, and its fields read back the lengths. -/
theorem controlByteDerivation : Obligations.ControlByteDerivation := by
  intro l d s t i hi hexec hok k
  obtain ⟨short, rfl⟩ : ∃ short, t = s.encodeQuad l d short := by
    rcases hi with rfl | rfl
    · exact ⟨.fatal, (Host.Outcome.next.inj hexec).symm⟩
    · exact ⟨.insufficient, (Host.Outcome.next.inj hexec).symm⟩
  rw [encodeQuad_ctrlOut_of_ok hok]
  calc blen ((storedQuad d s.req.val).get k)
      = (encQuad l d s.req.val).lens.get k := (encQuad_lens_get l d s.req.val k).symm
    _ = (ctrlLens (encQuad l d s.req.val).ctrl).get k := by rw [ctrlLens_encQuad]
    _ = _ := ofFn_get _ k

/-! ### What the parts of an encoding depend on -/

/-- The sum of the lengths before a value depends on those lengths alone. -/
theorem before_congr {n m : Four Nat} {i : Fin 4} (h : ∀ j, j < i → n.get j = m.get j) : n.before i = m.before i := by
  match i with
  | 0 => rfl
  | 1 => exact h 0 (by decide)
  | 2 => exact congrArg₂ (· + ·) (h 0 (by decide)) (h 1 (by decide))
  | 3 => exact congrArg₂ (· + ·) (congrArg₂ (· + ·) (h 0 (by decide)) (h 1 (by decide))) (h 2 (by decide))

/-- A delta depends on its value and the value before it alone (R95). -/
theorem deltaFwd_get_congr {v w : Four Word} {i : Fin 4} (hi : v.get i = w.get i)
    (hprev : i ≠ 0 → v.get (i - 1) = w.get (i - 1)) : (deltaFwd v).get i = (deltaFwd w).get i := by
  match i with
  | 0 => exact hi
  | 1 | 2 | 3 => exact congrArg₂ (· - ·) hi (hprev (by decide))

/-- The control field of a value in an encoding is that of its length (R69, R72). -/
theorem ctrlField_encQuad (l : Layout) (d : Bool) (v : Four Word) (i : Fin 4) :
    ctrlField (encQuad l d v).ctrl i = lenField (blen ((storedQuad d v).get i)) := by
  rw [← encQuad_lens_get l]
  exact ctrlField_packCtrl (encQuad_lens_bounds l d v) i

/-- Settles O26: with D = 0 the stored values are the values, and a length, a field and bytes are those of a stored
value. -/
theorem encoderLaneIndependence : Obligations.EncoderLaneIndependence := by
  intro l v w i
  refine ⟨fun hi => ?_, fun hlens => ?_, deltaFwd_get_congr⟩
  · have hstored : (storedQuad false v).get i = (storedQuad false w).get i := hi
    have hlen : (encQuad l false v).lens.get i = (encQuad l false w).lens.get i := by
      rw [encQuad_lens_get, encQuad_lens_get, hstored]
    refine ⟨hlen, ?_, congrArg₂ beBytes hstored hlen⟩
    rw [ctrlField_encQuad, ctrlField_encQuad, hstored]
  · exact congrArg (l.size + ·) (before_congr hlens)

end Sys2Proof.Machine
end

section
/-!
PROOFS. The family of the decoder on a buffer: the big-endian reader as a weighted sum, the answers of DEC.U and DEC.C,
the lanes they read, and the round trip with the encoder.
-/

namespace Sys2Proof.Machine

/-! ### The big-endian reader -/

/-- A read of any lanes is the big-endian value of the bytes read there (R82). -/
theorem rdBE_eq_beValue (b : Lanes) (o n : Nat) :
    rdBE b o n = BitVec.ofNat 32 (beValue ((List.range n).map fun k => laneRead b (o + k))) := by
  rw [← foldl_pushByte_zero, List.foldl_map]
  rfl

/-- A big-endian value is the weighted sum of its bytes: one byte more moves those before it up by one place (R31, R82). -/
theorem beValue_map_range (f : Nat → Byte) (n : Nat) :
    beValue ((List.range n).map f) = ((List.range n).map fun k => (f k).toNat * 2 ^ (8 * (n - 1 - k))).sum := by
  induction n with
  | zero => rfl
  | succ n ih =>
    have hmoved : ∀ k ∈ List.range n,
        (f k).toNat * 2 ^ (8 * (n + 1 - 1 - k)) = 256 * ((f k).toNat * 2 ^ (8 * (n - 1 - k))) := by
      intro k hk
      have hplace : 8 * (n + 1 - 1 - k) = 8 + 8 * (n - 1 - k) := by
        have := List.mem_range.mp hk
        omega
      rw [hplace, Nat.pow_add]
      ring
    rw [List.range_succ, List.map_append, List.map_append, List.map_singleton, List.map_singleton, beValue_append, ih,
      List.sum_append, List.map_congr_left hmoved, List.sum_map_mul_left]
    simp

/-- Settles O31: at most four bytes fit the word, so the read is their big-endian value, of which nothing is cut. -/
theorem bigEndianReadIsExact : Obligations.BigEndianReadIsExact := by
  intro b o n hn
  have hlt : beValue ((List.range n).map fun k => laneRead b (o + k)) < 2 ^ (8 * n) := by
    simpa using beValue_lt ((List.range n).map fun k => laneRead b (o + k))
  have hword : 2 ^ (8 * n) ≤ 2 ^ 32 := Nat.pow_le_pow_right Nat.two_pos (by omega)
  rw [rdBE_eq_beValue, BitVec.toNat_ofNat, Nat.mod_eq_of_lt (hlt.trans_le hword)]
  exact ⟨beValue_map_range _ n, hlt⟩

/-! ### The answers of DEC.U and DEC.C -/

/-- DEC.U decodes, and raises FATAL for a buffer below `need` (R84). -/
theorem exec_decU (l : Layout) (d : Bool) (s : State) : exec (.decU l d) s = s.decodeBuffer l d .fatal := rfl

/-- DEC.C decodes, and raises INSUFFICIENT for a buffer below `need` (R85). -/
theorem exec_decC (l : Layout) (d : Bool) (s : State) : exec (.decC l d) s = s.decodeBuffer l d .insufficient := rfl

/-- With `need` valid lanes a buffer decode responds with the quad of its bytes (R84, R85). -/
theorem decodeBuffer_of_fits {s : State} (hrom : s.RomIntact) {l : Layout} {c : Byte} (hc : CtrlByteIs l s.req c)
    (hfits : quadNeed l c ≤ s.req.inLen) (d : Bool) (short : Raise) :
    s.decodeBuffer l d short =
      .next { s with phase := .resp, rsp := decodedResponse l d c s.req.bufIn.toList } := by
  rw [decodeBuffer_of_ctrl hrom d short hc, if_neg (Nat.not_lt.mpr hfits), decRaw_eq_quadOf]
  rfl

/-- With fewer valid lanes than `need` a buffer decode raises (R84, R85). -/
theorem decodeBuffer_of_short {s : State} (hrom : s.RomIntact) {l : Layout} {c : Byte} (hc : CtrlByteIs l s.req c)
    (hshort : s.req.inLen < quadNeed l c) (d : Bool) (short : Raise) :
    s.decodeBuffer l d short = .next (s.raise short) := by
  rw [decodeBuffer_of_ctrl hrom d short hc, if_pos hshort]

/-- Settles O32: the two cases of the length check, and the buffer without a control byte, with FATAL. -/
theorem decUncheckedResult : Obligations.DecUncheckedResult := by
  intro l d s hrom
  rw [exec_decU, ← raise_fatal]
  refine ⟨by cases l <;> cases d <;> rfl, fun c hc => ⟨fun hfits => ?_, fun hshort => ?_⟩, fun hl hn => ?_⟩
  · exact decodeBuffer_of_fits hrom hc hfits d _
  · exact decodeBuffer_of_short hrom hc hshort d _
  · exact decodeBuffer_of_none d _ hl hn

/-- Settles O33: the two cases of the length check, and the buffer without a control byte, with INSUFFICIENT. -/
theorem decCheckedResult : Obligations.DecCheckedResult := by
  intro l d s hrom
  rw [exec_decC, ← raise_insufficient]
  refine ⟨by cases l <;> cases d <;> rfl, fun c hc => ⟨fun hfits => ?_, fun hshort => ?_⟩, fun hl hn => ?_⟩
  · exact decodeBuffer_of_fits hrom hc hfits d _
  · exact decodeBuffer_of_short hrom hc hshort d _
  · exact decodeBuffer_of_none d _ hl hn

/-! ### The lanes a decode reads -/

/-- The quad of a unit is that of its first `need` bytes: each value's bytes end at or before `need` (R83, R86). -/
theorem quadOf_take (l : Layout) (d : Bool) (c : Byte) (bytes : List Byte) :
    quadOf l d c (bytes.take (quadNeed l c)) = quadOf l d c bytes := by
  have hslice : ∀ i, ((bytes.take (quadNeed l c)).drop (laneOffset l (ctrlLens c) i)).take ((ctrlLens c).get i) =
      (bytes.drop (laneOffset l (ctrlLens c) i)).take ((ctrlLens c).get i) := by
    intro i
    have hend := laneOffset_le l c i
    rw [List.drop_take, List.take_take, Nat.min_eq_left (by omega)]
  rw [quadOf, quadOf]
  congr 1
  apply four_ext
  intro i
  rw [ofFn_get, ofFn_get]
  exact congrArg (fun xs => BitVec.ofNat 32 (beValue xs)) (hslice i)

/-- The response of a decode depends on the first `need` bytes of its unit (R86). -/
theorem decodedResponse_congr {l : Layout} {c : Byte} {bytes bytes' : List Byte}
    (h : bytes.take (quadNeed l c) = bytes'.take (quadNeed l c)) (d : Bool) :
    decodedResponse l d c bytes = decodedResponse l d c bytes' := by
  rw [decodedResponse, decodedResponse, ← quadOf_take, h, quadOf_take]

/-- Lanes that hold a list's bytes up to `n` are, as a list, that list up to `n`. -/
theorem take_lanes_eq {b : Lanes} {bytes : List Byte} {n : Nat} (hn : n ≤ laneCount) (hlen : n ≤ bytes.length)
    (h : ∀ j : Fin laneCount, j.val < n → b[j] = bytes.getD j.val 0#8) : b.toList.take n = bytes.take n := by
  apply List.ext_getElem
  · simp only [List.length_take, Vector.length_toList]
    omega
  · intro j hj hj'
    have hjn : j < n := by simp only [List.length_take] at hj'; omega
    rw [List.getElem_take, List.getElem_take, Vector.getElem_toList]
    exact (h ⟨j, by omega⟩ hjn).trans (List.getD_eq_getElem _ _ (hjn.trans_le hlen))

/-- Another buffer with the same lane 0 gives an inline decode the same control byte, and a split one does not read it
(R79). -/
theorem CtrlByteIs.of_lane_zero {l : Layout} {r : Request} {c : Byte} {b : Lanes} (hc : CtrlByteIs l r c)
    (hzero : l = .inline → b[0] = r.bufIn[0]) : CtrlByteIs l { r with bufIn := b } c := by
  cases l with
  | split => exact hc
  | inline =>
    obtain ⟨hlen, hbyte⟩ := hc
    exact ⟨hlen, hbyte.trans (hzero rfl).symm⟩

/-- Two buffers give the same answer if the inline control byte is the same and, where the length check passes, so are the
lanes below `need` (R86). -/
theorem decodeBuffer_sameAnswer_of_lanes {s : State} (hrom : s.RomIntact) {l : Layout} {c : Byte} {b : Lanes}
    (hc : CtrlByteIs l s.req c) (hzero : l = .inline → b[0] = s.req.bufIn[0])
    (hlanes : quadNeed l c ≤ s.req.inLen → ∀ j : Fin laneCount, j.val < quadNeed l c → b[j] = s.req.bufIn[j])
    (d : Bool) (short : Raise) :
    SameAnswer s { s with req := { s.req with bufIn := b } } short (s.decodeBuffer l d short)
      (State.decodeBuffer { s with req := { s.req with bufIn := b } } l d short) := by
  have hc' := hc.of_lane_zero hzero
  rcases Nat.lt_or_ge s.req.inLen (quadNeed l c) with hshort | hfits
  · exact .inl ⟨decodeBuffer_of_short hrom hc hshort d short,
      decodeBuffer_of_short (s := { s with req := { s.req with bufIn := b } }) hrom hc' hshort d short⟩
  · have hneed := (quadNeed_bounds l c).2
    have hbytes : b.toList.take (quadNeed l c) = s.req.bufIn.toList.take (quadNeed l c) :=
      take_lanes_eq hneed (by simpa using hneed) fun j hj => by simp [hlanes hfits j hj]
    refine .inr ⟨_, decodeBuffer_of_fits hrom hc hfits d short, ?_⟩
    rw [← decodedResponse_congr hbytes d]
    exact decodeBuffer_of_fits (s := { s with req := { s.req with bufIn := b } }) hrom hc' hfits d short

/-- The same answer of two states that differ in their request alone: one response and one FAULT. -/
theorem SameAnswer.with_request {s : State} {q : Request} {short : Raise} {o o' : Host.Outcome State Fault Refusal}
    (h : SameAnswer s { s with req := q } short o o') :
    ∃ r f, o = .next { s with fault := f, phase := .resp, rsp := r } ∧
      o' = .next { s with fault := f, phase := .resp, rsp := r, req := q } := by
  rcases h with ⟨hs, hu⟩ | ⟨r, hs, hu⟩
  · exact ⟨_, s.fault || raiseFaults short, hs, hu⟩
  · exact ⟨r, s.fault, hs, hu⟩

/-- Settles O34: lane 0 is below `need` and, where the inline control byte is read, below `in_len`; the other lanes count
only when the length check passes. -/
theorem decodersReadOnlyValidLanes : Obligations.DecodersReadOnlyValidLanes := by
  intro l d s b c i hi hrom
  obtain ⟨short, hexec⟩ : ∃ short, ∀ u, exec i u = u.decodeBuffer l d short := by
    rcases hi with rfl | rfl
    · exact ⟨.fatal, exec_decU l d⟩
    · exact ⟨.insufficient, exec_decC l d⟩
  rw [hexec, hexec]
  refine ⟨fun hc hlanes => ?_, fun hc hshort hzero => ?_, fun hl hn => ?_⟩
  · refine (decodeBuffer_sameAnswer_of_lanes hrom hc ?_ ?_ d short).with_request
    · rintro rfl
      have hneed := (quadNeed_bounds .inline c).1
      obtain ⟨hlen, -⟩ := hc
      exact hlanes 0 (Nat.lt_min.mpr ⟨by simp only [Fin.val_zero]; omega, hlen⟩)
    · exact fun hfits j hj => hlanes j (Nat.lt_min.mpr ⟨hj, by omega⟩)
  · exact (decodeBuffer_sameAnswer_of_lanes hrom hc hzero (fun hfits => by omega) d short).with_request
  · have hraise : SameAnswer s { s with req := { s.req with bufIn := b } } short (s.decodeBuffer l d short)
        (State.decodeBuffer { s with req := { s.req with bufIn := b } } l d short) :=
      .inl ⟨decodeBuffer_of_none d short hl hn, decodeBuffer_of_none d short hl hn⟩
    exact hraise.with_request

/-! ### The round trip with the encoder -/

/-- What a decoder returns of the values an encoder stores: the running sum of the deltas is the values (R72, R83). -/
theorem returnedQuad_storedQuad (d : Bool) (v : Four Word) : returnedQuad d (storedQuad d v) = v := by
  cases d with
  | false => rfl
  | true =>
    have hadd : ∀ x y : Word, x + (y - x) = y := fun x y => by rw [BitVec.add_comm, BitVec.sub_add_cancel]
    simp only [returnedQuad, storedQuad, if_true, deltaInv, deltaFwd, hadd]

/-- The unit that an encoder makes of a quad stands for that quad (R83, R94). -/
theorem quadOf_unitBytes (l : Layout) (d : Bool) (v : Four Word) :
    quadOf l d (encQuad l d v).ctrl
      (unitBytes l (encQuad l d v).ctrl (encQuad l d v).stored (encQuad l d v).lens) = v := by
  have hvalue : ∀ i, BitVec.ofNat 32 (beValue (beBytes ((encQuad l d v).stored.get i) ((encQuad l d v).lens.get i))) =
      (encQuad l d v).stored.get i := by
    intro i
    have hstored : (encQuad l d v).stored = storedQuad d v := rfl
    rw [encQuad_lens_get, hstored, beValue_beBytes _ _ (lt_pow_blen _), BitVec.ofNat_toNat, BitVec.setWidth_eq]
  calc quadOf l d _ _ = returnedQuad d (storedQuad d v) := by
        rw [quadOf, ctrlLens_encQuad]
        congr 1
        apply four_ext
        intro i
        rw [ofFn_get, unitBytes_slice]
        exact hvalue i
    _ = v := returnedQuad_storedQuad d v

/-- With the greatest capacity ENC.C answers its encoding, which always fits (R73, R76). -/
theorem exec_encC_of_full {s t : State} {l : Layout} {d : Bool} (hcap : 17 ≤ s.req.outCap)
    (h : exec (.encC l d) s = .next t) : t.rsp = encResponse l (encQuad l d s.req.val) := by
  obtain ⟨-, -, hle⟩ := encQuad_need l d s.req.val
  rw [exec_encC, encodeQuad_of_fits _ (hle.trans hcap)] at h
  cases h
  rfl

/-- A request that holds what an encoder answers has the encoding's control byte where its layout says (R79, R94). -/
theorem ctrlByteIs_of_encoded {l : Layout} {d : Bool} {v : Four Word} {r : Request}
    (hlen : r.inLen = (encQuad l d v).need) (hctrl : l = .split → r.ctrlIn = (encQuad l d v).ctrl)
    (hlanes : ∀ j : Fin laneCount, j.val < (encQuad l d v).need →
      r.bufIn[j] = (unitBytes l (encQuad l d v).ctrl (encQuad l d v).stored (encQuad l d v).lens).getD j.val 0#8) :
    CtrlByteIs l r (encQuad l d v).ctrl := by
  cases l with
  | split => exact (hctrl rfl).symm
  | inline =>
    obtain ⟨-, hge, -⟩ := encQuad_need .inline d v
    exact ⟨by omega, (hlanes 0 (by simp only [Fin.val_zero]; omega)).symm⟩

/-- Settles O35: the buffer holds the unit of the encoding, which stands for the quad. -/
theorem encodeThenDecodeReturnsQuad : Obligations.EncodeThenDecodeReturnsQuad := by
  intro l d s t u hcap hexec hrom hlen hctrl hlanes
  simp only [exec_encC_of_full hcap hexec, encResponse_nbytes_toNat] at hlen hctrl hlanes ⊢
  have hunit : ∀ j : Fin laneCount, j.val < (encQuad l d s.req.val).need → u.req.bufIn[j] =
      (unitBytes l (encQuad l d s.req.val).ctrl (encQuad l d s.req.val).stored (encQuad l d s.req.val).lens).getD
        j.val 0#8 :=
    fun j hj => (hlanes j hj).trans (encResponse_lane_fin l d s.req.val j).2
  have hneed := quadNeed_encQuad l d s.req.val
  obtain ⟨htotal, -, hle⟩ := encQuad_need l d s.req.val
  have hbytes : u.req.bufIn.toList.take (quadNeed l (encQuad l d s.req.val).ctrl) =
      (unitBytes l (encQuad l d s.req.val).ctrl (encQuad l d s.req.val).stored (encQuad l d s.req.val).lens).take
        (quadNeed l (encQuad l d s.req.val).ctrl) := by
    rw [hneed]
    exact take_lanes_eq hle (by rw [unitBytes_length, htotal]) hunit
  refine ⟨_, decodeBuffer_of_fits hrom (ctrlByteIs_of_encoded hlen hctrl hunit) (by omega) d .insufficient, rfl, ?_, ?_⟩
  · rw [decodedResponse_congr hbytes]
    exact quadOf_unitBytes l d s.req.val
  · exact congrArg (BitVec.ofNat 5) hneed

end Sys2Proof.Machine
end

section
/-!
PROOFS. The family of the decoder on the byte source: the progress after the bytes taken, the run of a DEC.S whose source
answers every pull, and that the three decoders share one rule.
-/

namespace Sys2Proof.Machine

/-! ### The progress after the bytes taken -/

/-- An element of a group with one element replaced. -/
theorem set_get {α : Type} (q : Four α) (i j : Fin 4) (a : α) :
    (q.set i a).get j = if i = j then a else q.get j := by
  match i, j with
  | 0, 0 | 0, 1 | 0, 2 | 0, 3 => rfl
  | 1, 0 | 1, 1 | 1, 2 | 1, 3 => rfl
  | 2, 0 | 2, 1 | 2, 2 | 2, 3 => rfl
  | 3, 0 | 3, 1 | 3, 2 | 3, 3 => rfl

/-- A section of a list grows with the list exactly when the new element falls in it. -/
theorem section_append_singleton {α : Type} (xs : List α) (b : α) (o n : Nat) :
    ((xs ++ [b]).drop o).take n =
      (xs.drop o).take n ++ if o ≤ xs.length ∧ xs.length < o + n then [b] else [] := by
  rw [List.drop_append, List.take_append, List.length_drop]
  congr 1
  split
  case isTrue h =>
    rw [Nat.sub_eq_zero_of_le h.1, List.drop_zero, List.take_of_length_le]
    simp only [List.length_singleton]
    omega
  case isFalse h =>
    rw [← List.length_eq_zero_iff]
    simp only [List.length_take, List.length_drop, List.length_singleton]
    omega

/-- One byte more on the accumulator of a list's big-endian value (R82, R89). -/
theorem pushByte_beValue (bs : List Byte) (b : Byte) :
    pushByte (BitVec.ofNat 32 (beValue bs)) b = BitVec.ofNat 32 (beValue (bs ++ [b])) := by
  rw [← foldl_pushByte_zero, ← foldl_pushByte_zero, List.foldl_append, List.foldl_cons, List.foldl_nil]

/-- What has been read of value `i` once a DEC.S has taken the bytes `taken` (R81, R89). -/
def partialValue (l : Layout) (c : Byte) (taken : List Byte) (i : Fin 4) : Word :=
  BitVec.ofNat 32 (beValue ((taken.drop (laneOffset l (ctrlLens c) i)).take ((ctrlLens c).get i)))

/-- A data byte enters the value in whose section it stands (R81, R89). -/
theorem partialValue_append_of_mem {l : Layout} {c : Byte} {taken : List Byte} {i : Fin 4}
    (h : laneOffset l (ctrlLens c) i ≤ taken.length ∧
      taken.length < laneOffset l (ctrlLens c) i + (ctrlLens c).get i) (b : Byte) :
    partialValue l c (taken ++ [b]) i = pushByte (partialValue l c taken i) b := by
  rw [partialValue, partialValue, section_append_singleton, if_pos h, pushByte_beValue]

/-- A byte outside the section of a value leaves it as it is (R81). -/
theorem partialValue_append_of_not_mem {l : Layout} {c : Byte} {taken : List Byte} {i : Fin 4}
    (h : ¬ (laneOffset l (ctrlLens c) i ≤ taken.length ∧
      taken.length < laneOffset l (ctrlLens c) i + (ctrlLens c).get i)) (b : Byte) :
    partialValue l c (taken ++ [b]) i = partialValue l c taken i := by
  rw [partialValue, partialValue, section_append_singleton, if_neg h, List.append_nil]

/-- `p` is the progress of a DEC.S that has taken the bytes `taken` of a unit with control byte `c` (R26, R89): the control
byte is known once the layout's bytes have been taken, and each accumulator holds what has been read of its value. -/
structure ProgAfter (l : Layout) (d : Bool) (c : Byte) (taken : List Byte) (p : Prog) : Prop where
  layout : p.layout = l
  diff : p.diff = d
  count : p.k = taken.length
  ctrl : p.ctrl = if l.size ≤ taken.length then some c else none
  acc : ∀ i, p.acc.get i = partialValue l c taken i

/-- A DEC.S just accepted has taken nothing (R26). -/
theorem progAfter_start {l : Layout} {r : Request} {c : Byte} (hc : l = .split → c = r.ctrlIn) (d : Bool) :
    ProgAfter l d c [] (progStart l d r) where
  layout := rfl
  diff := rfl
  count := rfl
  ctrl := by
    cases l with
    | split => rw [hc rfl]; rfl
    | inline => rfl
  acc i := by
    have hzero : (Four.fill 0#32 : Four Word).get i = 0#32 := by
      match i with
      | 0 | 1 | 2 | 3 => rfl
    rw [partialValue, List.drop_nil, List.take_nil]
    exact hzero

/-- The data byte taken at place `k` of the unit belongs to value `i` exactly when it stands in the value's section (R81,
R89). -/
theorem valueIndex_ctrlLens_iff {l : Layout} {c : Byte} {k : Nat} (hsize : l.size ≤ k) (hk : k < quadNeed l c)
    (i : Fin 4) : valueIndex (ctrlLens c) (k - l.size) = i ↔
      laneOffset l (ctrlLens c) i ≤ k ∧ k < laneOffset l (ctrlLens c) i + (ctrlLens c).get i := by
  rw [← quadNeed_eq] at hk
  rw [valueIndex_eq_iff _ _ (by omega)]
  simp only [laneOffset]
  omega

/-- A data byte accumulated is a byte more of the unit read (R89). -/
theorem accumulate_get {l : Layout} {c : Byte} {taken : List Byte} {acc : Four Word}
    (hacc : ∀ i, acc.get i = partialValue l c taken i) (hsize : l.size ≤ taken.length)
    (hlt : taken.length < quadNeed l c) (b : Byte) (i : Fin 4) :
    (accumulate (ctrlLens c) (taken.length - l.size) acc b).get i = partialValue l c (taken ++ [b]) i := by
  have hiff := valueIndex_ctrlLens_iff hsize hlt i
  rw [accumulate, set_get]
  by_cases hi : valueIndex (ctrlLens c) (taken.length - l.size) = i
  · rw [if_pos hi, hi, hacc, partialValue_append_of_mem (hiff.mp hi)]
  · rw [if_neg hi, hacc, partialValue_append_of_not_mem (mt hiff.mpr hi)]

/-- While the control byte is not known, nothing has been taken of an inline unit (R79, R92). -/
theorem inline_of_size_gt {l : Layout} {taken : List Byte} (h : ¬ l.size ≤ taken.length) : l = .inline ∧ taken = [] := by
  cases l with
  | split => exact absurd (Nat.zero_le _) h
  | inline => exact ⟨rfl, List.length_eq_zero_iff.mp (by simp only [Layout.size] at h; omega)⟩

/-- A byte taken before `need` gives the progress after that byte: the control byte of an inline unit, else a data byte
(R89, R92). -/
theorem ProgAfter.progByte {l : Layout} {d : Bool} {c : Byte} {taken : List Byte} {p : Prog}
    (h : ProgAfter l d c taken p) (hlt : taken.length < quadNeed l c) {b : Byte}
    (hhead : l = .inline → (taken ++ [b]).head? = some c) :
    ProgAfter l d c (taken ++ [b]) (progByte romContents p b) := by
  obtain ⟨hlayout, hdiff, hcount, hctrl, hacc⟩ := h
  by_cases hsize : l.size ≤ taken.length
  · rw [if_pos hsize] at hctrl
    have hbyte : Machine.progByte romContents p b =
        { p with k := p.k + 1, acc := accumulate (ctrlLens c) (taken.length - l.size) p.acc b } := by
      simp only [Machine.progByte, hctrl, romLens_contents, hcount, hlayout]
    rw [hbyte]
    refine ⟨hlayout, hdiff, by simp [hcount], ?_, accumulate_get hacc hsize hlt b⟩
    rw [if_pos (by simp; omega)]
    exact hctrl
  · rw [if_neg hsize] at hctrl
    obtain ⟨rfl, rfl⟩ := inline_of_size_gt hsize
    obtain rfl : b = c := Option.some.inj (hhead rfl)
    have hbyte : Machine.progByte romContents p b = { p with k := p.k + 1, ctrl := some b } := by
      simp only [Machine.progByte, hctrl]
    rw [hbyte]
    refine ⟨hlayout, hdiff, by simp [hcount], rfl, fun i => ?_⟩
    rw [partialValue_append_of_not_mem (by simp [laneOffset, Layout.size])]
    exact hacc i

/-- A DEC.S that has taken `need` bytes responds with the quad of them (R89, R92). -/
theorem ProgAfter.decResponse_eq {l : Layout} {d : Bool} {c : Byte} {taken : List Byte} {p : Prog}
    (h : ProgAfter l d c taken p) :
    decResponse (returnedQuad p.diff p.acc) (quadNeed p.layout c) = decodedResponse l d c taken := by
  have hacc : p.acc = Four.ofFn (partialValue l c taken) := four_ext fun i => by rw [h.acc, ofFn_get]
  rw [h.layout, h.diff, hacc]
  rfl

/-! ### The run of a DEC.S -/

/-- The open transaction `s` as a DEC.S in progress: its progress, what stands of the pulls a reset abandoned, and the
inputs to come. Nothing else of the state changes while it waits (R26). -/
def State.streaming (s : State) (p : Prog) (abandoned : Nat) (env : List Input) : State :=
  { s with prog := some p, abandoned := abandoned, env := env }

@[simp] theorem streaming_phase (s : State) (p : Prog) (n : Nat) (e : List Input) :
    (s.streaming p n e).phase = s.phase := rfl
@[simp] theorem streaming_pending (s : State) (p : Prog) (n : Nat) (e : List Input) :
    (s.streaming p n e).pending = s.pending := rfl
@[simp] theorem streaming_prog (s : State) (p : Prog) (n : Nat) (e : List Input) :
    (s.streaming p n e).prog = some p := rfl

/-- A DEC.S in progress has a pull outstanding (R27). -/
theorem streaming_srcPull {s : State} (hbusy : s.phase = .busy) (p : Prog) (n : Nat) (e : List Input) :
    (s.streaming p n e).srcPull = true := by
  simp [State.srcPull, hbusy]

/-- The step in which the source answers the outstanding pull takes the answer (R89, R90). -/
theorem step_answer {s : State} (hbusy : s.phase = .busy) (hpend : s.pending = none) (p : Prog) (n : Nat) (a : Answer)
    (rest : List Input) :
    step (s.streaming p n (answerInput a :: rest)) = .next ((s.streaming p 0 rest).takeAnswer p a) := by
  have hin : (s.streaming p n (answerInput a :: rest)).input = answerInput a := rfl
  have hread : (s.streaming p n (answerInput a :: rest)).readInput = s.streaming p 0 rest := by
    simp [State.readInput, State.streaming, State.input, answerInput, Input.quiet, abandonedAfter, memWrites, hpend]
  have hproto : (s.streaming p n (answerInput a :: rest)).protocolError = none := by
    simp only [State.protocolError, hin, streaming_pending, hpend, streaming_srcPull hbusy]
    rfl
  rw [step_busy rfl hproto hbusy, hread, hin]
  rfl

/-- A byte before the last leaves the DEC.S waiting with the progress after it; the last completes it (R27, R89). -/
theorem takeAnswer_byte {s : State} (hrom : s.RomIntact) {l : Layout} {d : Bool} {c b : Byte} {taken : List Byte}
    {p : Prog} (hp : ProgAfter l d c taken (progByte romContents p b)) (hsize : l.size ≤ taken.length) :
    s.takeAnswer p (.byte b) =
      if taken.length < quadNeed l c then { s with prog := some (progByte romContents p b) }
      else ({ s with prog := none }).respond (decodedResponse l d c taken) := by
  have hr : s.rom = romContents := hrom
  have hbyte : s.takeAnswer p (.byte b) = s.continueStream (progByte romContents p b) := by rw [State.takeAnswer, hr]
  have hctrl : (progByte romContents p b).ctrl = some c := hp.ctrl.trans (if_pos hsize)
  rw [hbyte, continueStream_known hrom _ hctrl, hp.decResponse_eq, hp.count, hp.layout]

/-- The step that accepts a DEC.S opens its transaction with nothing taken (R22, R89). -/
theorem step_accepts_decS {s : State} {r : Request} {l : Layout} {d : Bool} (hrom : s.RomIntact) (ha : s.Accepts r)
    (hd : decode s.params r.cmd = .instr (.decS l d)) :
    step s = .next ((s.readInput.accept r).streaming (progStart l d (requestOnPort s.params r))
      s.readInput.abandoned s.env.tail) := by
  rw [stepRunsAcceptedCommand s r _ ha hd, exec_decS (s := s.readInput.accept r) hrom]
  rfl

section
variable {l : Layout} {d : Bool} {s : State} {r : Request} {c : Byte} {bytes : List Byte} {x : Input}

/-- The control byte of a split unit is `ctrl_in` (R79). -/
theorem StreamUnit.ctrl_split (hu : StreamUnit l r c bytes) : l = .split → c = r.ctrlIn := by
  rintro rfl
  exact hu.2

/-- The first bytes of an inline unit begin with its control byte (R92). -/
theorem StreamUnit.head_take (hu : StreamUnit l r c bytes) (m : Nat) :
    l = .inline → (bytes.take (m + 1)).head? = some c := by
  rintro rfl
  rw [List.head?_take, if_neg (Nat.succ_ne_zero m)]
  exact hu.2

/-- After byte `m` of the unit the progress is that after `m + 1` bytes (R89, R92). -/
theorem StreamUnit.progAfter_succ (hu : StreamUnit l r c bytes) {m : Nat} (hm : m < bytes.length) {p : Prog}
    (hp : ProgAfter l d c (bytes.take m) p) :
    ProgAfter l d c (bytes.take (m + 1)) (progByte romContents p bytes[m]) := by
  have htake := List.take_succ_eq_append_getElem hm
  have hhead := hu.head_take m
  rw [htake] at hhead ⊢
  refine hp.progByte ?_ hhead
  rw [List.length_take, ← hu.1]
  omega

/-- The step in which the source answers with byte `m` of the unit: the DEC.S waits with one byte more taken, or with the
last byte responds (R27, R89). -/
theorem StreamUnit.step_byte (hu : StreamUnit l r c bytes) (hrom : s.RomIntact) (hbusy : s.phase = .busy)
    (hpend : s.pending = none) {m : Nat} (hm : m < bytes.length) {p : Prog} (hp : ProgAfter l d c (bytes.take m) p)
    (n : Nat) (tail : List Input) :
    step (s.streaming p n (answerInput (.byte bytes[m]) :: tail)) =
      .next (if m + 1 < quadNeed l c then s.streaming (progByte romContents p bytes[m]) 0 tail
        else { s with
          phase := .resp
          rsp := decodedResponse l d c (bytes.take (m + 1))
          prog := none
          abandoned := 0
          env := tail }) := by
  have hlen : (bytes.take (m + 1)).length = m + 1 := List.length_take_of_le hm
  have hsize : l.size ≤ (bytes.take (m + 1)).length := by
    have := layout_size_le l
    omega
  rw [step_answer hbusy hpend, takeAnswer_byte (s := s.streaming p 0 tail) hrom (hu.progAfter_succ hm hp) hsize, hlen]
  rfl

/-- A DEC.S whose source has answered `m` pulls with the first bytes of the unit, `m < need`, waits with the progress
after them; of the state it was accepted into, nothing else has changed (R26, R89). -/
theorem run_decS (hu : StreamUnit l r c bytes) (hrom : s.RomIntact) (ha : s.Accepts r)
    (hd : decode s.params r.cmd = .instr (.decS l d)) {m : Nat} (hm : m < quadNeed l c) {tail : List Input}
    (henv : s.env = x :: ((bytes.take m).map fun b => answerInput (.byte b)) ++ tail) :
    ∃ p n, ProgAfter l d c (bytes.take m) p ∧
      Host.Core.run Sys2Proof.core (1 + m) s = .next ((s.readInput.accept r).streaming p n tail) := by
  induction m generalizing tail with
  | zero =>
    refine ⟨_, s.readInput.abandoned, progAfter_start (r := requestOnPort s.params r) hu.ctrl_split d, ?_⟩
    rw [Nat.add_comm, run_cons (step_accepts_decS hrom ha hd), henv]
    rfl
  | succ m ih =>
    have hlt : m < bytes.length := by rw [hu.1]; omega
    rw [List.take_succ_eq_append_getElem hlt, List.map_append, List.map_singleton, ← List.cons_append,
      List.append_assoc, List.singleton_append] at henv
    obtain ⟨p, n, hp, hrun⟩ := ih (by omega) henv
    have hstep := hu.step_byte (s := s.readInput.accept r) hrom rfl rfl hlt hp n tail
    rw [if_pos hm] at hstep
    exact ⟨_, _, hu.progAfter_succ hlt hp, run_snoc hstep hrun⟩

/-- The inputs of a run whose source answers with all the bytes are those of its first `m` answers and the others. -/
theorem answers_split (m : Nat) {rest : List Input} :
    x :: (bytes.map fun b => answerInput (.byte b)) ++ rest =
      x :: ((bytes.take m).map fun b => answerInput (.byte b)) ++
        ((bytes.drop m).map (fun b => answerInput (.byte b)) ++ rest) := by
  rw [List.cons_append, List.cons_append, ← List.append_assoc, ← List.map_append, List.take_append_drop]

/-- A DEC.S whose source has answered `need` pulls with the bytes of the unit has responded with the quad of them; of the
state it was accepted into, nothing else has changed (R89). -/
theorem run_decS_completes (hu : StreamUnit l r c bytes) (hrom : s.RomIntact) (ha : s.Accepts r)
    (hd : decode s.params r.cmd = .instr (.decS l d)) {rest : List Input}
    (henv : s.env = x :: (bytes.map fun b => answerInput (.byte b)) ++ rest) :
    Host.Core.run Sys2Proof.core (1 + quadNeed l c) s = .next { s.readInput.accept r with
      phase := .resp
      rsp := decodedResponse l d c bytes
      prog := none
      abandoned := 0
      env := rest } := by
  obtain ⟨m, hm⟩ : ∃ m, quadNeed l c = m + 1 := Nat.exists_eq_succ_of_ne_zero (by
    have := (quadNeed_bounds l c).1
    omega)
  have hlt : m < bytes.length := by rw [hu.1, hm]; exact Nat.lt_succ_self m
  have hall : bytes.take (m + 1) = bytes := List.take_of_length_le (by rw [hu.1, hm])
  have hlast : bytes.drop m = [bytes[m]] := by
    rw [List.drop_eq_getElem_cons hlt, List.drop_of_length_le (by rw [hu.1, hm])]
  rw [answers_split m, hlast] at henv
  obtain ⟨p, n, hp, hrun⟩ := run_decS hu hrom ha hd (by omega) henv
  have hstep := hu.step_byte (s := s.readInput.accept r) hrom rfl rfl hlt hp n rest
  rw [if_neg (by omega), hall] at hstep
  rw [hm]
  exact run_snoc hstep hrun

end

/-- Settles O37: before the last answer the DEC.S waits with the progress after the bytes taken; the last completes it. -/
theorem streamDecodesQuad : Obligations.StreamDecodesQuad := by
  intro l d s r c bytes x rest hrom ha hd hu henv
  refine ⟨fun m hm => ?_, _, run_decS_completes hu hrom ha hd henv, rfl, rfl, rfl, rfl, ha.2.1, rfl, rfl⟩
  rw [answers_split m] at henv
  obtain ⟨p, n, hp, hrun⟩ := run_decS hu hrom ha hd hm henv
  have hcount : p.k = m := hp.count.trans (List.length_take_of_le (by rw [hu.1]; exact hm.le))
  exact ⟨_, p, hrun, rfl, streaming_srcPull rfl p n _, rfl, hcount⟩

/-- Settles O38: the DEC.S waits with the progress after the bytes taken, and the failure ends it with its code, which is
not cut. -/
theorem streamFailureEndsAtOnce : Obligations.StreamFailureEndsAtOnce := by
  intro l d s r c bytes x rest m e hrom ha hd hu hm hcode henv
  obtain ⟨p, n, -, hrun⟩ := run_decS hu hrom ha hd hm henv
  have hstep := step_answer (s := s.readInput.accept r) rfl rfl p n (.fail e) rest
  have hfits : errOnPort s.params e = e := Nat.mod_eq_of_lt hcode
  refine ⟨_, by rw [Nat.add_right_comm 1 1 m]; exact run_snoc hstep hrun, rfl, ?_, rfl, rfl, ?_, ?_, rfl⟩
  · exact congrArg (fun e => { Response.zero with status := .srcError, errCode := e }) hfits
  · exact Bool.or_false s.fault
  · exact congrArg (fun x => memWrites s.ob x.callerWrites) (input_cons henv)

/-- Settles O40: each of the three answers the response of the same unit. -/
theorem decodersShareOneRule : Obligations.DecodersShareOneRule := by
  intro l d s u r c bytes x rest hrom ha hd hu henv hurom hc hfits hlanes
  have hbytes : u.req.bufIn.toList.take (quadNeed l c) = bytes.take (quadNeed l c) :=
    take_lanes_eq (quadNeed_bounds l c).2 hu.1.ge hlanes
  exact ⟨_, _, _, run_decS_completes hu hrom ha hd henv, decodeBuffer_of_fits hurom hc hfits d .insufficient,
    decodeBuffer_of_fits hurom hc hfits d .fatal, (decodedResponse_congr hbytes d).symm, rfl, rfl⟩

end Sys2Proof.Machine
end

section
/-!
PROOFS. The family of the delta layer: the two deltas are inverse, what an ordered and an unordered pair give, a core
without the wrapper, and a decode without D of what was stored with D.
-/

namespace Sys2Proof.Machine

/-! ### The two deltas -/

/-- The deltas of the running sums are the values summed (R98). -/
theorem deltaFwd_deltaInv (w : Four Word) : deltaFwd (deltaInv w) = w := by
  simp only [deltaInv, deltaFwd, add_sub_cancel_left]

/-- Settles O27: the sum of the deltas is what a decoder returns of the stored values. -/
theorem deltaInverseLaw : Obligations.DeltaInverseLaw :=
  fun v => ⟨returnedQuad_storedQuad true v, deltaFwd_deltaInv v⟩

/-! ### Ordered and unordered pairs -/

/-- Each delta after the first is its value's difference from the value before it (R95). -/
theorem deltaFwd_get (v : Four Word) {i : Fin 4} (hi : i ≠ 0) : (deltaFwd v).get i = v.get i - v.get (i - 1) := by
  match i with
  | 0 => exact absurd rfl hi
  | 1 | 2 | 3 => rfl

/-- The difference of an unordered pair wraps once (R96). -/
theorem toNat_sub_of_lt {x y : Word} (h : x.toNat < y.toNat) : (x - y).toNat = x.toNat + 2 ^ 32 - y.toNat := by
  have hx := x.isLt
  rw [BitVec.toNat_sub]
  omega

/-- A value takes four bytes exactly when it reaches the last threshold (R68). -/
theorem blen_eq_four_iff (x : Word) : blen x = 4 ↔ 2 ^ 24 ≤ x.toNat := by
  have hle := (blen_bounds x).2
  constructor
  · intro h
    by_contra hlt
    have : blen x ≤ 3 := blen_le_of_lt_pow (by decide) (Nat.lt_of_not_le hlt)
    omega
  · intro h
    by_contra hne
    have : x.toNat < 2 ^ (8 * 3) := (lt_pow_blen x).trans_le (Nat.pow_le_pow_right Nat.two_pos (by omega))
    omega

/-- A value that is no larger takes no more bytes (R68). -/
theorem blen_mono {x y : Word} (h : x.toNat ≤ y.toNat) : blen x ≤ blen y :=
  blen_le_of_lt_pow (blen_bounds y).1 (h.trans_lt (lt_pow_blen y))

/-- Settles O28: a delta is a difference of two words, which wraps exactly for an unordered pair. -/
theorem deltaOfUnorderedPairWraps : Obligations.DeltaOfUnorderedPairWraps := by
  intro v i hi
  rw [deltaFwd_get v hi]
  refine ⟨fun hlt => ?_, fun hle => ?_, fun heq => ?_⟩
  · have hwrap := toNat_sub_of_lt hlt
    have hprev := (v.get (i - 1)).isLt
    rw [blen_eq_four_iff, hwrap]
    omega
  · have hsub : (v.get i - v.get (i - 1)).toNat ≤ (v.get i).toNat := by
      rw [BitVec.toNat_sub_of_le hle]
      exact Nat.sub_le _ _
    exact ⟨hsub, blen_mono hsub⟩
  · rw [heq, BitVec.sub_self]
    exact ⟨rfl, rfl⟩

/-! ### What a meaning does not depend on -/

/-- A buffer decode that answers a next state has raised, or has read raw values `w`. On a state with the same ROM and
request it does the same with every D, and answers what that D makes of `w` (R83). -/
theorem decodeBuffer_next_congr {s u t : State} (hrom : u.rom = s.rom) (hreq : u.req = s.req) {l : Layout} {d : Bool}
    {short : Raise} (h : s.decodeBuffer l d short = .next t) :
    (t = s.raise short ∧ ∀ d', u.decodeBuffer l d' short = .next (u.raise short)) ∨
    ∃ w n, t = s.respond (decResponse (returnedQuad d w) n) ∧
      ∀ d', u.decodeBuffer l d' short = .next (u.respond (decResponse (returnedQuad d' w) n)) := by
  simp only [State.decodeBuffer, hrom, hreq] at h ⊢
  split at h
  · cases h
    exact .inl ⟨rfl, fun _ => rfl⟩
  · split at h
    · cases h
      exact .inl ⟨rfl, fun _ => if_pos ‹_›⟩
    · split at h
      · cases h
      · cases h
        exact .inr ⟨_, _, rfl, fun _ => (if_neg ‹_›).trans (if_neg ‹_›)⟩

/-- The encoders do the same on a core of other parameters. -/
theorem encodeQuad_with_params (s : State) (p : Params) (l : Layout) (d : Bool) (short : Raise) :
    ({ s with params := p } : State).encodeQuad l d short = { s.encodeQuad l d short with params := p } := by
  rw [encodeQuad_eq, encodeQuad_eq]
  split <;> rfl

/-- The buffer decoders do the same on a core of other parameters. -/
theorem decodeBuffer_with_params {s t : State} {l : Layout} {d : Bool} {short : Raise}
    (h : s.decodeBuffer l d short = .next t) (p : Params) :
    ({ s with params := p } : State).decodeBuffer l d short = .next { t with params := p } := by
  rcases decodeBuffer_next_congr (s := s) (u := { s with params := p }) rfl rfl h with
    ⟨rfl, hsame⟩ | ⟨w, n, rfl, hsame⟩ <;> exact hsame d

/-- DEC.S does the same on a core of other parameters. -/
theorem continueStream_with_params (s : State) (p : Params) (q : Prog) :
    ({ s with params := p } : State).continueStream q = { s.continueStream q with params := p } := by
  simp only [State.continueStream]
  split
  · rfl
  · split <;> rfl

/-- No meaning reads the parameters (R24): on a core of other parameters it gives the same next state but for them. -/
theorem exec_with_params {i : Instr} {s t : State} (h : exec i s = .next t) (p : Params) :
    exec i { s with params := p } = .next { t with params := p } := by
  cases i with
  | lutRd => cases h; rfl
  | encU l d => cases h; exact congrArg _ (encodeQuad_with_params s p l d .fatal)
  | encC l d => cases h; exact congrArg _ (encodeQuad_with_params s p l d .insufficient)
  | decU l d => exact decodeBuffer_with_params h p
  | decC l d => exact decodeBuffer_with_params h p
  | decS l d => cases h; exact congrArg _ (continueStream_with_params s p (progStart l d s.req))

/-- A meaning leaves the parameters as they are (R24). -/
theorem exec_keeps_params {i : Instr} {s t : State} (h : exec i s = .next t) : t.params = s.params := by
  rcases exec_cases h with ⟨r, p, -, -, rfl⟩ | ⟨p, rfl⟩ <;> rfl

/-! ### A core without the wrapper -/

/-- An accepted word that is reserved ends ILLEGAL (R58, R107). -/
theorem step_accepts_reserved {s : State} {r : Request} (ha : s.Accepts r) {why : Reserved}
    (h : decode s.params r.cmd = .reserved why) :
    step s = .next { s.readInput.accept r with phase := .resp, rsp := bareResponse .illegal } := by
  have hword : decode (s.readInput.accept r).params (s.readInput.accept r).req.cmd = .reserved why := h
  rw [step_accepts ha, State.runCommand, hword]
  simp only [raise_eq, raiseFaults, Bool.or_false]
  rfl

/-- Settles O29: D = 1 is reserved without the wrapper, and what decodes has D = 0, which needs no wrapper. -/
theorem withoutWrapperDiffIsIllegal : Obligations.WithoutWrapperDiffIsIllegal := by
  intro s r hno ha
  refine ⟨fun hd => ?_, fun i hdec => ?_⟩
  · obtain ⟨why, hres⟩ := (decode_reserved_iff s.params r.cmd).mpr (.inr ⟨hd, hno⟩)
    exact step_accepts_reserved ha hres
  · obtain ⟨hcmd, hwf⟩ := decode_eq_instr_iff.mp hdec
    have hdiff : i.diff = false := by simpa [hno] using wf_iff.mp hwf
    refine ⟨hdiff, decode_eq_instr_iff.mpr ⟨hcmd, wf_iff.mpr fun _ => rfl⟩, fun u t h => ?_⟩
    rw [exec_keeps_params h]
    exact exec_with_params h _

/-! ### Decoding without D -/

/-- Settles O30: both decodes have the same raw values, which are the deltas of their running sums. -/
theorem decodeWithoutDiffReturnsDeltas : Obligations.DecodeWithoutDiffReturnsDeltas := by
  intro l s t h hok
  rw [exec_decC] at h
  rcases decodeBuffer_next_congr rfl rfl h with ⟨rfl, -⟩ | ⟨w, n, rfl, hraw⟩
  · exact absurd hok (raiseStatus_ne_ok .insufficient)
  · exact ⟨_, hraw false, rfl, rfl, (deltaFwd_deltaInv w).symm⟩

end Sys2Proof.Machine
end

section
/-!
PROOFS. The family of the outcomes: what a response records when its status is not OK, what each tier can answer, and
what follows once the response is taken.
-/

namespace Sys2Proof.Machine

/-! ### A reserved command -/

/-- Settles O11: the accepting step of a reserved word. -/
theorem reservedCommandAnswersIllegal : Obligations.ReservedCommandAnswersIllegal :=
  fun _ _ _ ha hres => step_accepts_reserved ha hres

/-! ### What a response other than OK records -/

/-- The response records nothing but its status and, with a source failure, its code (R104 to R107). -/
structure Response.RecordsOutcomeAlone (r : Response) : Prop where
  bare : r = { Response.zero with status := r.status, errCode := r.errCode }
  code : r.status ≠ .srcError → r.errCode = 0

/-- A response that is its status and no more records its outcome alone. -/
theorem recordsOutcomeAlone_of_bare {r : Response} (h : r = bareResponse r.status) : r.RecordsOutcomeAlone := by
  have hcode : r.errCode = 0 := congrArg Response.errCode h
  exact ⟨by rw [hcode]; exact h, fun _ => hcode⟩

/-- A response that a meaning completes is OK or records its outcome alone. -/
theorem ExecCase.recordsOutcomeAlone {s t : State} (h : ExecCase s t) (hs : s.phase = .busy) (ht : t.phase = .resp)
    (hst : t.rsp.status ≠ .ok) : t.rsp.RecordsOutcomeAlone := by
  rcases h with ⟨r, p, hr, -, rfl⟩ | ⟨p, rfl⟩
  · exact recordsOutcomeAlone_of_bare (hr.resolve_left hst)
  · simp [hs] at ht

/-- A stream decode leaves FAULT as it is, and from BUSY it completes no response but OK (R26, R89). -/
theorem continueStream_fault_status {s : State} (hs : s.phase = .busy) (p : Prog) :
    (s.continueStream p).fault = s.fault ∧
    ((s.continueStream p).phase = .resp → (s.continueStream p).rsp.status = .ok) := by
  rcases continueStream_cases s p with h | ⟨v, n, h⟩ <;> rw [h]
  · exact ⟨rfl, fun hph => by simp [hs] at hph⟩
  · exact ⟨rfl, fun _ => rfl⟩

/-- A response that an answer of the source completes is OK or records the failure alone (R89, R90). -/
theorem takeAnswer_recordsOutcomeAlone {s : State} (hs : s.phase = .busy) {p : Prog} {a : Answer}
    (ht : (s.takeAnswer p a).phase = .resp) (hst : (s.takeAnswer p a).rsp.status ≠ .ok) :
    (s.takeAnswer p a).rsp.RecordsOutcomeAlone := by
  cases a with
  | byte b => exact absurd ((continueStream_fault_status hs (progByte s.rom p b)).2 ht) hst
  | fail e => exact ⟨rfl, fun hne => absurd rfl hne⟩

/-- A response other than OK that a step completes records its outcome alone (R110). -/
theorem step_recordsOutcomeAlone {s t : State} (h : step s = .next t) (hs : s.phase ≠ .resp) (ht : t.phase = .resp)
    (hst : t.rsp.status ≠ .ok) : t.rsp.RecordsOutcomeAlone := by
  cases step_cases h with
  | reset _ hreset => simp [hreset] at ht
  | waits _ _ hwait _ => rw [hwait] at ht; exact absurd ht hs
  | accepts r _ hrun => exact (runCommand_cases hrun).recordsOutcomeAlone rfl ht hst
  | runs _ _ hi _ hrun => exact (runCommand_cases hrun).recordsOutcomeAlone hi ht hst
  | answers _ _ hi p a _ _ hanswer =>
    subst hanswer
    exact takeAnswer_recordsOutcomeAlone (s := s.readInput) hi ht hst
  | takes hk _ => exact absurd hk.1 hs

/-- Settles O45: the response by `step_recordsOutcomeAlone`, the rest by the frame of a step that takes no response. -/
theorem nonOkOutcomesArePrecise : Obligations.NonOkOutcomesArePrecise := by
  intro s t h hr hs ht hst
  obtain ⟨hbare, hcode⟩ := step_recordsOutcomeAlone h hs ht hst
  obtain ⟨hrom, hparams⟩ := noStepChangesRomOrParams s t h
  refine ⟨hbare, hcode, step_ob_of_not_takes h fun hk => hs hk.1, hrom, hparams, fun hfatal => ?_⟩
  have hfault : t.fault = true ↔ s.fault = true := by simpa [hfatal] using step_fault_iff h hr
  exact Bool.eq_iff_iff.mpr hfault

/-! ### The two tiers -/

/-- What a command of either tier can do: raise the status of its tier, respond OK, or, in the checked tier alone, go on
with a stream decode (R122). -/
inductive TierCase (i : Instr) (s t : State) : Prop where
  | short (ht : t = s.raise (if i.checked then .insufficient else .fatal))
  | responds (r : Response) (hok : r.status = .ok) (ht : t = s.respond r)
  | streams (p : Prog) (hchecked : i.checked = true) (ht : t = s.continueStream p)

/-- An encoder raises `short` or responds OK, so it does what a tier that raises `short` can. -/
theorem tierCase_encodeQuad {i : Instr} (s : State) (l : Layout) (d : Bool) {short : Raise}
    (hshort : (if i.checked then Raise.insufficient else .fatal) = short) : TierCase i s (s.encodeQuad l d short) := by
  subst hshort
  rw [encodeQuad_eq]
  split
  · exact .short rfl
  · exact .responds _ rfl rfl

/-- A buffer decoder raises `short` or responds OK, so it does what a tier that raises `short` can. -/
theorem tierCase_decodeBuffer {i : Instr} {s t : State} {l : Layout} {d : Bool} {short : Raise}
    (hshort : (if i.checked then Raise.insufficient else .fatal) = short) (h : s.decodeBuffer l d short = .next t) :
    TierCase i s t := by
  subst hshort
  rcases decodeBuffer_next h with ht | ⟨c, -, ht⟩
  · exact .short ht
  · exact .responds _ rfl ht

/-- Every command does what its tier can (R75, R76, R84, R85, R89). -/
theorem exec_tierCase {i : Instr} {s t : State} (h : exec i s = .next t) : TierCase i s t := by
  cases i with
  | lutRd => cases h; exact .responds _ rfl rfl
  | encU l d => cases h; exact tierCase_encodeQuad s l d rfl
  | encC l d => cases h; exact tierCase_encodeQuad s l d rfl
  | decU l d => exact tierCase_decodeBuffer rfl h
  | decC l d => exact tierCase_decodeBuffer rfl h
  | decS l d => cases h; exact .streams _ rfl rfl

/-- A checked command leaves FAULT as it is and does not answer FATAL. -/
theorem TierCase.checked {i : Instr} {s t : State} (h : TierCase i s t) (hs : s.phase = .busy)
    (hi : i.checked = true) : t.fault = s.fault ∧ (t.phase = .resp → t.rsp.status ≠ .fatal) := by
  rcases h with rfl | ⟨r, hok, rfl⟩ | ⟨p, -, rfl⟩
  · simp [hi, raiseFaults, raiseStatus]
  · simp [hok]
  · obtain ⟨hfault, hok⟩ := continueStream_fault_status hs p
    exact ⟨hfault, fun hph => by simp [hok hph]⟩

/-- An unchecked command responds, and does not answer INSUFFICIENT. -/
theorem TierCase.unchecked {i : Instr} {s t : State} (h : TierCase i s t) (hi : i.checked = false) :
    t.phase = .resp ∧ t.rsp.status ≠ .insufficient := by
  rcases h with rfl | ⟨r, hok, rfl⟩ | ⟨p, hchecked, -⟩
  · simp [hi, raiseStatus]
  · simp [hok]
  · simp [hi] at hchecked

/-- An answer of the source leaves FAULT as it is and does not answer FATAL (R89, R90). -/
theorem takeAnswer_fault_status {s : State} (hs : s.phase = .busy) (p : Prog) (a : Answer) :
    (s.takeAnswer p a).fault = s.fault ∧
    ((s.takeAnswer p a).phase = .resp → (s.takeAnswer p a).rsp.status ≠ .fatal) := by
  rcases takeAnswer_cases s p a with ⟨b, -, h⟩ | ⟨e, -, h⟩ <;> rw [h]
  · obtain ⟨hfault, hok⟩ := continueStream_fault_status hs (progByte s.rom p b)
    exact ⟨hfault, fun hph => by simp [hok hph]⟩
  · exact ⟨rfl, fun _ => by simp⟩

/-- Settles O44: each tier by what its commands can do, and the answers of the source. -/
theorem tiersAreNotMerged : Obligations.TiersAreNotMerged :=
  ⟨fun _ _ _ hs h => ⟨(exec_tierCase h).checked hs, (exec_tierCase h).unchecked⟩,
    fun _ p a hs => takeAnswer_fault_status hs p a⟩

/-! ### Once the response is taken -/

/-- A step that ends in RESP is not a reset (R123). -/
theorem not_reset_of_step_resp {s t : State} (h : step s = .next t) (ht : t.phase = .resp) : s.input.rst = false := by
  by_contra hr
  rw [step_reset (by simpa using hr)] at h
  cases h
  simp at ht

/-- Taking a response with FAULT set and no lane enabled halts the core and writes nothing (R28, R108). -/
theorem step_takes_halts {s : State} (hk : s.Takes) (hf : s.fault = true) (hout : s.rsp.out = OutLanes.clear) :
    ∃ t, step s = .next t ∧ t.phase = .halt ∧ t.reqReady = false ∧ t.faultO = true ∧
      t.ob = memWrites s.ob s.input.callerWrites := by
  refine ⟨_, step_takes hk, by simp [hf], by simp [State.reqReady, hf], hf, ?_⟩
  rw [takeResponse_ob, readInput_rsp, hout, memApply_clear, readInput_ob]

/-- Settles O41: FAULT by `step_fault_iff`, the response by `step_recordsOutcomeAlone`, and the taking step. -/
theorem fatalEntryHaltsCore : Obligations.FatalEntryHaltsCore := by
  intro s t h hs ht hfatal
  have hfault : t.fault = true := (step_fault_iff h (not_reset_of_step_resp h ht)).mpr (.inr ⟨hs, ht, hfatal⟩)
  have hrsp : t.rsp = bareResponse .fatal := by
    obtain ⟨hbare, hcode⟩ := step_recordsOutcomeAlone h hs ht (by simp [hfatal])
    rw [hfatal, hcode (by simp [hfatal])] at hbare
    exact hbare
  exact ⟨hfault, hrsp, fun hk => step_takes_halts hk hfault (by rw [hrsp]; rfl)⟩

/-- Settles O47: the fields of the state after the taking step, with FAULT = 0. -/
theorem recoverableOutcomeReturnsToIdle : Obligations.RecoverableOutcomeReturnsToIdle := by
  intro s hk hf
  refine ⟨_, step_takes hk, ?_, ?_, ?_, rfl, rfl, rfl, rfl⟩
  · simp [hf]
  · simp [State.reqReady, hf]
  · simp [State.rspValid, hf]

end Sys2Proof.Machine
end

section
/-!
PROOFS. The family of reset and hazards: what a step leaves of the request, when a step stops, what HALT keeps, and what
reset makes of the core and of the pulls outstanding.
-/

namespace Sys2Proof.Machine

/-! ### The channels' protocol -/

/-- A step that answers a next state without reset keeps the channels' protocol (R128, R131). -/
theorem protocolError_of_step_next {s t : State} (h : step s = .next t) (hr : s.input.rst = false) :
    s.protocolError = none := by
  cases hp : s.protocolError with
  | none => rfl
  | some q => rw [step_protocol hr hp] at h; cases h

/-- With a quiet source the protocol is kept exactly when a waiting request is still presented (R128). -/
theorem protocolError_quiet_iff {s : State} (hs : s.input.src = .quiet) :
    s.protocolError = none ↔ (s.pending.isSome = true → s.input.req = s.pending) := by
  simp [State.protocolError, hs]

/-- With a late answer a pull must, besides, have been abandoned (R124, R131). -/
theorem protocolError_late_iff {s : State} {a : Answer} (hs : s.input.src = .late a) :
    s.protocolError = none ↔ (s.pending.isSome = true → s.input.req = s.pending) ∧ 0 < s.abandoned := by
  simp only [State.protocolError, hs]
  by_cases hwait : s.pending.isSome = true ∧ s.input.req ≠ s.pending
  · simp [hwait.1, hwait.2]
  · rw [if_neg hwait, and_iff_right (by simpa using hwait)]
    simp [Nat.pos_iff_ne_zero]

/-- The ways to break the protocol: a waiting request withdrawn or changed (R128), an answer without its pull (R131). -/
theorem protocolError_cases {s : State} {q : Refusal} (h : s.protocolError = some q) :
    (q = .requestUnstable ∧ s.pending ≠ none ∧ s.input.req ≠ s.pending) ∨
    (q = .sourceUnasked ∧ (∃ a, s.input.src = .answer a) ∧ s.srcPull = false) ∨
    (q = .sourceUnasked ∧ (∃ a, s.input.src = .late a) ∧ s.abandoned = 0) := by
  simp only [State.protocolError] at h
  split at h
  · rename_i hunstable
    cases h
    exact .inl ⟨rfl, Option.isSome_iff_ne_none.mp hunstable.1, hunstable.2⟩
  · split at h
    · cases h
    · rename_i a hsrc
      split at h <;> cases h
      exact .inr (.inl ⟨rfl, ⟨a, hsrc⟩, by simpa using ‹¬ s.srcPull = true›⟩)
    · rename_i a hsrc
      split at h <;> cases h
      exact .inr (.inr ⟨rfl, ⟨a, hsrc⟩, by simpa using ‹¬ 0 < s.abandoned›⟩)

/-! ### The open request -/

/-- Work leaves the waiting request and the sampled one as they are. -/
theorem WorkCase.requests {s t : State} (h : WorkCase s t) : t.pending = s.pending ∧ t.req = s.req := by
  rcases h with ⟨r, p, rfl⟩ | ⟨p, rfl⟩ <;> exact ⟨rfl, rfl⟩

/-- Settles O12: no case of a step but the accepting one, which needs `req_ready`, drops the presented request. -/
theorem oneTransactionAtATime : Obligations.OneTransactionAtATime := by
  intro s t hready hr h
  cases step_cases h with
  | reset hrst _ => simp [hr] at hrst
  | waits _ _ ht _ => rw [ht]; exact ⟨rfl, .inl rfl⟩
  | accepts r ha _ =>
    obtain ⟨hi, hf, -⟩ := ha
    simp [State.reqReady, hi, hf] at hready
  | runs _ _ _ _ ht => exact (runCommand_work ht).requests.imp_right .inl
  | answers _ _ _ p a _ _ ht => rw [ht]; exact (takeAnswer_work s.readInput p a).requests.imp_right .inl
  | takes hk ht => rw [ht]; exact ⟨rfl, .inr ⟨hk, rfl⟩⟩

/-! ### HALT -/

/-- A step in HALT that answers a next state without reset only reads its input (R108, R136). -/
theorem step_halt_next {s t : State} (h : step s = .next t) (hr : s.input.rst = false) (hi : s.phase = .halt) :
    t = s.readInput := by
  rw [step_halt hr (protocolError_of_step_next h hr) hi, State.haltStep] at h
  split at h <;> cases h
  rfl

/-- Settles O42: in HALT a step only reads its input. -/
theorem haltIsPermanentUntilReset : Obligations.HaltIsPermanentUntilReset := by
  intro s hi hr
  refine ⟨by simp [State.reqReady, hi], fun t h => ?_⟩
  rw [step_halt_next h hr hi]
  exact ⟨hi, rfl, rfl, rfl, rfl⟩

/-! ### The stops of a step -/

/-- The work of a phase is never refused. -/
theorem phaseStep_ne_refused (s : State) (x : Input) (last : Bool) (q : Refusal) :
    s.phaseStep x last ≠ .refused q := by
  intro h
  cases hph : s.phase with
  | idle =>
    simp only [State.phaseStep, hph, State.idleStep] at h
    split at h
    · cases h
    · split at h
      · exact runCommand_ne_refused _ _ h
      · cases h
  | busy =>
    simp only [State.phaseStep, hph, State.busyStep] at h
    split at h
    · exact runCommand_ne_refused _ _ h
    · split at h <;> cases h
  | resp =>
    simp only [State.phaseStep, hph, State.respStep] at h
    split at h <;> cases h
  | halt =>
    simp only [State.phaseStep, hph, State.haltStep] at h
    split at h <;> cases h

/-- A step is refused only for a broken protocol, and never under reset. -/
theorem step_refused {s : State} {q : Refusal} (h : step s = .refused q) :
    s.input.rst = false ∧ s.protocolError = some q := by
  cases hr : s.input.rst with
  | true => rw [step_reset hr] at h; cases h
  | false =>
    cases hp : s.protocolError with
    | none => rw [step_phase hr hp] at h; exact absurd h (phaseStep_ne_refused _ _ _ _)
    | some q' => rw [step_protocol hr hp] at h; cases h; exact ⟨rfl, rfl⟩

/-- With the ROM intact a step faults only in HALT with no input left (R108). -/
theorem step_fault {s : State} {q : Fault} (hrom : s.RomIntact) (h : step s = .fault q) :
    q = .halted ∧ s.phase = .halt ∧ s.env = [] ∧ s.input.rst = false := by
  cases hr : s.input.rst with
  | true => rw [step_reset hr] at h; cases h
  | false =>
    cases hp : s.protocolError with
    | some q' => rw [step_protocol hr hp] at h; cases h
    | none =>
      by_cases hi : s.phase = .halt
      · rw [step_halt hr hp hi, State.haltStep] at h
        split at h <;> cases h
        exact ⟨rfl, hi, List.isEmpty_iff.mp ‹_›, rfl⟩
      · obtain ⟨t, ht⟩ := step_completes hrom hr hp hi
        rw [ht] at h; cases h

/-- Settles O49: `step_refused` with the ways to break the protocol, and `step_fault`. -/
theorem stopsOnlyOutsideTheSpec : Obligations.StopsOnlyOutsideTheSpec := by
  refine fun s => ⟨fun q h => ?_, fun q hrom h => step_fault hrom h⟩
  obtain ⟨hr, hp⟩ := step_refused h
  exact ⟨hr, protocolError_cases hp⟩

/-! ### Reset -/

/-- Settles O54: FAULT stays set by `step_fault_iff` and HALT is kept by `step_halt_next`; reset gives the fields of
`State.resetStep`. -/
theorem resetFromEveryState : Obligations.ResetFromEveryState := by
  refine ⟨fun s t h hout => ?_, fun s hr => ?_⟩
  · by_contra hrst
    have hr : s.input.rst = false := by simpa using hrst
    rcases hout with ⟨hs, ht⟩ | ⟨hs, ht⟩
    · have hset : t.fault = true := (step_fault_iff h hr).mpr (.inl hs)
      simp [ht] at hset
    · rw [step_halt_next h hr hs] at ht
      exact ht hs
  · exact ⟨_, step_reset hr, rfl, rfl, rfl, rfl, rfl, rfl, rfl, rfl, rfl, rfl⟩

/-- A reset in mid-pull leaves the pull abandoned, unless its answer comes in that very step (R124). -/
theorem abandonedAtReset_pos {s : State} (hpull : s.srcPull = true) {x : SrcSignal} (hx : ∀ a, x ≠ .answer a) :
    0 < abandonedAtReset s x := by
  cases x with
  | quiet => simp [abandonedAtReset, hpull]
  | answer a => exact absurd rfl (hx a)
  | late a => simp [abandonedAtReset, hpull]

/-- With the ROM intact a step in IDLE that keeps the protocol answers a next state, under reset as well. -/
theorem step_idle_completes {s : State} (hrom : s.RomIntact) (hp : s.protocolError = none) (hi : s.phase = .idle) :
    ∃ t, step s = .next t := by
  cases hr : s.input.rst with
  | true => exact ⟨_, step_reset hr⟩
  | false => exact step_completes hrom hr hp (by simp [hi])

/-- Settles O59: the count after the reset by `abandonedAtReset`, and the late answer by `protocolError_late_iff`. -/
theorem resetAbandonsOutstandingPull : Obligations.ResetAbandonsOutstandingPull := by
  intro s hr
  refine ⟨s.resetStep s.input, step_reset hr, rfl, fun hs => ?_, fun a hs => ?_, fun a hs => ?_,
    fun hpull hsrc a hlate => ?_⟩
  · rw [resetStep_abandoned, hs]; rfl
  · rw [resetStep_abandoned, hs]; rfl
  · rw [resetStep_abandoned, hs]; rfl
  · have hcount : 0 < (s.resetStep s.input).abandoned := abandonedAtReset_pos hpull hsrc
    have hproto : (s.resetStep s.input).protocolError = none :=
      (protocolError_late_iff hlate).mpr ⟨fun hwait => by simp at hwait, hcount⟩
    exact ⟨hcount, hproto, fun hrom => step_idle_completes hrom hproto rfl⟩

/-! ### A late answer -/

/-- The state with another count of abandoned pulls. -/
def State.withAbandoned (s : State) (n : Nat) : State := { s with abandoned := n }

@[simp] theorem withAbandoned_phase (s : State) (n : Nat) : (s.withAbandoned n).phase = s.phase := rfl
@[simp] theorem withAbandoned_prog (s : State) (n : Nat) : (s.withAbandoned n).prog = s.prog := rfl
@[simp] theorem withAbandoned_reqReady (s : State) (n : Nat) : (s.withAbandoned n).reqReady = s.reqReady := rfl
@[simp] theorem withAbandoned_accept (s : State) (n : Nat) (r : Request) :
    (s.withAbandoned n).accept r = (s.accept r).withAbandoned n := rfl
@[simp] theorem withAbandoned_takeResponse (s : State) (n : Nat) :
    (s.withAbandoned n).takeResponse = s.takeResponse.withAbandoned n := rfl

/-- The encoders do not read the count of abandoned pulls. -/
theorem encodeQuad_withAbandoned (s : State) (n : Nat) (l : Layout) (d : Bool) (short : Raise) :
    (s.withAbandoned n).encodeQuad l d short = (s.encodeQuad l d short).withAbandoned n := by
  simp only [encodeQuad_eq, apply_ite (State.withAbandoned · n)]
  rfl

/-- The buffer decoders do not read the count of abandoned pulls. -/
theorem decodeBuffer_withAbandoned {s t : State} {l : Layout} {d : Bool} {short : Raise}
    (h : s.decodeBuffer l d short = .next t) (n : Nat) :
    (s.withAbandoned n).decodeBuffer l d short = .next (t.withAbandoned n) := by
  rcases decodeBuffer_next_congr (s := s) (u := s.withAbandoned n) rfl rfl h with
    ⟨rfl, hsame⟩ | ⟨w, m, rfl, hsame⟩ <;> exact hsame d

/-- A DEC.S that is opened or goes on does not read the count of abandoned pulls. -/
theorem continueStream_withAbandoned (s : State) (n : Nat) (p : Prog) :
    (s.withAbandoned n).continueStream p = (s.continueStream p).withAbandoned n := by
  cases hc : p.ctrl with
  | none => rw [continueStream_unknown _ p hc, continueStream_unknown _ p hc]; rfl
  | some c =>
    simp only [State.continueStream, hc, apply_ite (State.withAbandoned · n)]
    rfl

/-- No command reads the count of abandoned pulls. -/
theorem runCommand_withAbandoned {s t : State} (h : s.runCommand = .next t) (n : Nat) :
    (s.withAbandoned n).runCommand = .next (t.withAbandoned n) := by
  have hword : decode (s.withAbandoned n).params (s.withAbandoned n).req.cmd = decode s.params s.req.cmd := rfl
  rw [State.runCommand] at h ⊢
  rw [hword]
  cases hd : decode s.params s.req.cmd with
  | reserved why => rw [hd] at h; cases h; rfl
  | instr i =>
    rw [hd] at h
    cases i with
    | lutRd => cases h; rfl
    | encU l d => cases h; exact congrArg _ (encodeQuad_withAbandoned s n l d .fatal)
    | encC l d => cases h; exact congrArg _ (encodeQuad_withAbandoned s n l d .insufficient)
    | decU l d => exact decodeBuffer_withAbandoned h n
    | decC l d => exact decodeBuffer_withAbandoned h n
    | decS l d => cases h; exact congrArg _ (continueStream_withAbandoned s n (progStart l d s.req))

/-- Without an answer to the outstanding pull, the work of a phase reads neither the source nor the count of abandoned
pulls. -/
theorem phaseStep_withAbandoned {s t : State} {x : Input} {last : Bool} (hx : ∀ a, x.src ≠ .answer a)
    (h : s.phaseStep x last = .next t) (n : Nat) :
    (s.withAbandoned n).phaseStep { x with src := .quiet } last = .next (t.withAbandoned n) := by
  cases hph : s.phase with
  | idle =>
    cases hq : x.req with
    | none => simp_all [State.phaseStep, State.idleStep]
    | some r =>
      cases hready : s.reqReady with
      | false => simp_all [State.phaseStep, State.idleStep]
      | true =>
        have hrun : (s.accept r).runCommand = .next t := by
          simpa [State.phaseStep, hph, State.idleStep, hq, hready] using h
        simpa [State.phaseStep, hph, State.idleStep, hq, hready] using runCommand_withAbandoned hrun n
  | busy =>
    cases hn : s.prog with
    | none =>
      have hrun : s.runCommand = .next t := by simpa [State.phaseStep, hph, State.busyStep, hn] using h
      simpa [State.phaseStep, hph, State.busyStep, hn] using runCommand_withAbandoned hrun n
    | some p => simp_all [State.phaseStep, State.busyStep]
  | resp =>
    cases hk : x.rspReady with
    | false => simp_all [State.phaseStep, State.respStep]
    | true => simp_all [State.phaseStep, State.respStep]
  | halt =>
    cases last with
    | false => simp_all [State.phaseStep, State.haltStep]
    | true => simp_all [State.phaseStep, State.haltStep]

/-- Work leaves the count of abandoned pulls as it is. -/
theorem WorkCase.abandoned {s t : State} (h : WorkCase s t) : t.abandoned = s.abandoned := by
  rcases h with ⟨r, p, rfl⟩ | ⟨p, rfl⟩ <;> rfl

/-- Without reset a step leaves the count of abandoned pulls as its source signal makes it (R117, R124). -/
theorem step_abandoned {s t : State} (h : step s = .next t) (hr : s.input.rst = false) :
    t.abandoned = abandonedAfter s s.input.src := by
  cases step_cases h with
  | reset hrst _ => simp [hr] at hrst
  | waits _ _ ht _ => rw [ht, readInput_abandoned]
  | accepts r _ ht => exact (runCommand_work ht).abandoned
  | runs _ _ _ _ ht => exact (runCommand_work ht).abandoned
  | answers _ _ _ p a _ _ ht => rw [ht]; exact (takeAnswer_work s.readInput p a).abandoned
  | takes _ ht => rw [ht, takeResponse_abandoned, readInput_abandoned]

/-- Where a late answer comes, the same step with a quiet source does the same but for the count of abandoned pulls. -/
theorem step_quiet_of_late {s t : State} {a : Answer} {x : Input} {rest : List Input} (henv : s.env = x :: rest)
    (hr : x.rst = false) (hsrc : x.src = .late a) (h : step s = .next t) :
    step { s with env := { x with src := .quiet } :: rest } = .next (t.withAbandoned s.abandoned) := by
  have hin : s.input = x := input_cons henv
  rw [← hin] at hr hsrc
  have hp : s.protocolError = none := protocolError_of_step_next h hr
  have hread : ({ s with env := { x with src := .quiet } :: rest } : State).readInput =
      s.readInput.withAbandoned s.abandoned := by
    simp [State.readInput, State.withAbandoned, State.input, abandonedAfter, henv]
  have hquiet : ({ s with env := { x with src := .quiet } :: rest } : State).protocolError = none := by
    obtain ⟨hwait, -⟩ := (protocolError_late_iff hsrc).mp hp
    rw [hin] at hwait
    exact (protocolError_quiet_iff rfl).mpr hwait
  rw [step_phase hr hp, hin, henv] at h
  rw [step_phase (hin ▸ hr) hquiet, hread]
  exact phaseStep_withAbandoned (by simp [← hin, hsrc]) h s.abandoned

/-- Settles O55: the step with a quiet source by `step_quiet_of_late`, and the count by `step_abandoned`. -/
theorem lateAnswerIsIgnored : Obligations.LateAnswerIsIgnored := by
  intro s a x rest _ henv hr hsrc t h
  have hin : s.input = x := input_cons henv
  have hcount : t.abandoned = s.abandoned - 1 := by
    rw [step_abandoned h (hin ▸ hr), hin, hsrc]; rfl
  exact ⟨_, step_quiet_of_late henv hr hsrc h, by rw [← hcount]; rfl⟩

end Sys2Proof.Machine
end
